-- ==== Sys2Proof/Word.lean ====
section
/-! DEFINITION. The three word sizes of the block: a payload or storage byte, a CRC value, a command or
response word (rules R11, R31, R70). -/

namespace Sys2Proof

/-- One byte of `storage` or of a payload (rules R51, R70). -/
abbrev Byte := BitVec 8

/-- One entry of `table` and the CRC accumulator (rules R31, R34). -/
abbrev Half := BitVec 16

/-- A command word `CW` and a response `value` (rules R70, R71, R75). -/
abbrev Word := BitVec 32

end Sys2Proof
end

