-- ==== Sys2Proof/Syntax.lean ====
section
/-! DEFINITION. The commands of the block, one constructor per row of the opcode table (rules R2, R72, R81),
and the pseudo-commands, which are other names of them (rule R84). -/

namespace Sys2Proof

/-- The register numbers 0 to 7 of SYS.RDREG, in order (rule R152). Register 8, `RB_MAX_STORAGE`, has a
row of its own in the opcode table and a constructor of its own in `Instr`. -/
inductive Reg where
  | rbCapacity
  | rbHead
  | rbTail
  | rbStatus
  | rbCount
  | rbTotalPushed
  | rbTotalPopped
  | crcStatus
  deriving DecidableEq, Repr

/-- A decoded command word. An operand is the natural number the 24-bit field `arg` stands for (rule R73).
The payload bytes are not part of the word: they arrive on the payload channel (rules R70, R74). -/
inductive Instr where
  /-- RB.CONFIGURE, requested capacity `c` (rules R101 to R103). -/
  | configure (c : Nat)
  /-- RB.RESET (rule R104). -/
  | reset
  /-- RB.PUSH of `len` payload bytes (rules R105 to R109). -/
  | push (len : Nat)
  /-- RB.POP of at most `maxLen` bytes (rules R110 to R113). -/
  | pop (maxLen : Nat)
  /-- CRC.CHECKSUM of `len` payload bytes (rules R130 to R137). -/
  | checksum (len : Nat)
  /-- SYS.RDREG of register 0 to 7 (rules R150 to R154). -/
  | rdreg (r : Reg)
  /-- SYS.RDREG of register 8, the constant `MAX_STORAGE` (rule R152). -/
  | rdregMaxStorage
  deriving DecidableEq, Repr

/-- The pseudo-command `rb.push1 <b>` (rule R84); `b` is its payload byte. -/
def Instr.rbPush1 : Instr := .push 1

/-- The pseudo-command `rb.pop1` (rule R84). -/
def Instr.rbPop1 : Instr := .pop 1

/-- The pseudo-command `rb.status` (rule R84). -/
def Instr.rbStatus : Instr := .rdreg .rbStatus

/-- The pseudo-command `rb.count` (rule R84). -/
def Instr.rbCount : Instr := .rdreg .rbCount

/-- The pseudo-command `crc.ready` (rule R84). -/
def Instr.crcReady : Instr := .rdreg .crcStatus

end Sys2Proof
end

