-- ==== Sys2Proof/WellFormed.lean ====
section
/-! DEFINITION. Which commands a command word can express: the operand fits the 24-bit field (rules R71, R73). -/

namespace Sys2Proof

/-- The operand is a value of the 24-bit field `arg` (rule R73: `0 .. 2^24 - 1`). -/
abbrev ArgFits (n : Nat) : Prop := n < 2 ^ 24

/-- A command that some command word decodes to. Every in-range operand is legal: an RB.CONFIGURE whose
capacity is out of range is a legal command that answers `INVALID_CAPACITY` (rule R79). -/
abbrev Instr.WellFormed : Instr → Prop
  | .configure c => ArgFits c
  | .reset => True
  | .push len => ArgFits len
  | .pop maxLen => ArgFits maxLen
  | .checksum len => ArgFits len
  | .rdreg _ => True
  | .rdregMaxStorage => True

end Sys2Proof
end

