-- ==== Sys2Proof/Decode.lean ====
section
/-! DEFINITION. The command word: its fields (rule R71), the decoder, total on 32-bit words and rejecting a
reserved word by name (rules R72, R78, R79, R81), the payload length (rule R74), and the encoder, written from
the same table. -/

namespace Sys2Proof

/-- `unit`, the bits 31 to 28 of a command word (rule R71). -/
def unitOf (cw : Word) : BitVec 4 := cw.extractLsb' 28 4

/-- `func`, the bits 27 to 24 of a command word (rule R71). -/
def funcOf (cw : Word) : BitVec 4 := cw.extractLsb' 24 4

/-- `op := CW[31:24] = {unit, func}` (rule R71). -/
def opOf (cw : Word) : BitVec 8 := unitOf cw ++ funcOf cw

/-- `arg := CW[23:0]`, read as an unsigned natural (rules R71, R73). -/
def argOf (cw : Word) : Nat := (cw.extractLsb' 0 24).toNat

/-- Opcode `0x10`: unit 1 (RB), func 0 (rule R72). -/
def opConfigure : BitVec 8 := 0x10#8
/-- Opcode `0x11`: unit 1 (RB), func 1 (rule R72). -/
def opReset : BitVec 8 := 0x11#8
/-- Opcode `0x12`: unit 1 (RB), func 2 (rule R72). -/
def opPush : BitVec 8 := 0x12#8
/-- Opcode `0x13`: unit 1 (RB), func 3 (rule R72). -/
def opPop : BitVec 8 := 0x13#8
/-- Opcode `0x20`: unit 2 (CRC), func 0 (rule R72). -/
def opChecksum : BitVec 8 := 0x20#8
/-- Opcode `0x30`: unit 3 (SYS), func 0 (rule R72). -/
def opRdreg : BitVec 8 := 0x30#8

/-- The six defined opcodes (rule R72); the other 250 values of `op` are reserved (rule R78). -/
def definedOpcodes : List (BitVec 8) := [opConfigure, opReset, opPush, opPop, opChecksum, opRdreg]

/-- The number of a register in SYS.RDREG's operand (rule R152). -/
def Reg.number : Reg → Nat
  | .rbCapacity => 0
  | .rbHead => 1
  | .rbTail => 2
  | .rbStatus => 3
  | .rbCount => 4
  | .rbTotalPushed => 5
  | .rbTotalPopped => 6
  | .crcStatus => 7

/-- Why a command word is reserved: the named rejections of the decoder. Each is answered with
`ILLEGAL_CMD`, so none ends a run. -/
inductive Reserved where
  /-- `op` is not one of the six opcodes (rule R78). -/
  | opcode
  /-- RB.RESET with `arg != 0` (rule R79 (a)). -/
  | resetOperand
  /-- SYS.RDREG with `arg > 8` (rules R79 (b), R155). -/
  | registerNumber
  deriving DecidableEq, Repr

/-- SYS.RDREG of register `n`: the nine legal numbers (rules R150, R152, R155). -/
def decodeRdreg : Nat → Except Reserved Instr
  | 0 => .ok (.rdreg .rbCapacity)
  | 1 => .ok (.rdreg .rbHead)
  | 2 => .ok (.rdreg .rbTail)
  | 3 => .ok (.rdreg .rbStatus)
  | 4 => .ok (.rdreg .rbCount)
  | 5 => .ok (.rdreg .rbTotalPushed)
  | 6 => .ok (.rdreg .rbTotalPopped)
  | 7 => .ok (.rdreg .crcStatus)
  | 8 => .ok .rdregMaxStorage
  | _ => .error .registerNumber

/-- `decode(CW)` of rule R81, by rules R72, R78 and R79. It reads no state. -/
def decode (cw : Word) : Except Reserved Instr :=
  if opOf cw = opConfigure then .ok (.configure (argOf cw))
  else if opOf cw = opReset then
    if argOf cw = 0 then .ok .reset else .error .resetOperand
  else if opOf cw = opPush then .ok (.push (argOf cw))
  else if opOf cw = opPop then .ok (.pop (argOf cw))
  else if opOf cw = opChecksum then .ok (.checksum (argOf cw))
  else if opOf cw = opRdreg then decodeRdreg (argOf cw)
  else .error .opcode

/-- How many payload bytes follow a command word: `arg` for RB.PUSH and CRC.CHECKSUM, 0 for every other
value of `op`, reserved ones included (rule R74). -/
def payloadLen (cw : Word) : Nat :=
  if opOf cw = opPush ∨ opOf cw = opChecksum then argOf cw else 0

/-- A command frame: a command word and its input payload, first byte first (rule R70). -/
structure Frame where
  /-- `CW`. -/
  word : Word
  /-- `in[0 .. ]`. -/
  payload : List Byte
  deriving DecidableEq, Repr

/-- A frame is a command of this block only if its payload has the length its word fixes (rule R74). -/
abbrev Frame.WellFormed (f : Frame) : Prop := f.payload.length = payloadLen f.word

/-- The command word with opcode `op` and operand `arg` (rule R71). -/
def commandWord (op : BitVec 8) (arg : Nat) : Word := op ++ BitVec.ofNat 24 arg

/-- The command word of a well-formed command (rules R72, R83). -/
def encode : Instr → Word
  | .configure c => commandWord opConfigure c
  | .reset => commandWord opReset 0
  | .push len => commandWord opPush len
  | .pop maxLen => commandWord opPop maxLen
  | .checksum len => commandWord opChecksum len
  | .rdreg r => commandWord opRdreg r.number
  | .rdregMaxStorage => commandWord opRdreg 8

/-- The instruction the decoder reads from a row's bits `w`, numbered as the opcode table numbers them. A
command word is presented in parallel and has no byte order (rule R71), so bit `i` of `w` is `CW[i]`; the
one format has 32 bits, so a `w` that needs more is no command word. The row's width `nbits` only says which
bits the table fixes: the bits above it are 0. -/
def decodeTableWord (nbits w : Nat) : Option Instr :=
  if w < 2 ^ min nbits 32 then
    match decode (BitVec.ofNat 32 w) with
    | .ok i => some i
    | .error _ => none
  else none

end Sys2Proof
end

