-- ==== Sys2Proof/Config.lean ====
section
/-! DEFINITION. What an implementation fixes (the parameters of rule R9), what the spec fixes for every
implementation (rule R10), and the free values: what the spec leaves unspecified (rules R26, R33). -/

namespace Sys2Proof.Config

/-- The parameters a build chooses (rule R9). A state carries the parameters of its build, so a statement
about every state is a statement about every build. `LATENCY` is no field: no rule depends on it (R204). -/
structure Params where
  /-- `MAX_STORAGE`, bytes in `storage` and upper bound of `capacity`. -/
  maxStorage : Nat
  /-- `CNT_W`, width in bits of the two counters. -/
  cntW : Nat
  /-- `RESET_CAPACITY`, the value of `capacity` after hardware reset. -/
  resetCapacity : Nat
  deriving DecidableEq, Repr

/-- `IDX_W = max(1, ceil(log2(MAX_STORAGE)))` (rule R9, decision D3). -/
def Params.idxW (p : Params) : Nat := max 1 (Nat.clog 2 p.maxStorage)

/-- `CAP_W = floor(log2(MAX_STORAGE)) + 1` (rule R9, decision D3). -/
def Params.capW (p : Params) : Nat := Nat.log 2 p.maxStorage + 1

/-- The constraints rule R9 puts on the parameters. -/
abbrev Params.Valid (p : Params) : Prop :=
  (1 ≤ p.maxStorage ∧ p.maxStorage ≤ 2 ^ 24 - 2) ∧
  (p.capW ≤ p.cntW ∧ p.cntW ≤ 32) ∧
  (1 ≤ p.resetCapacity ∧ p.resetCapacity ≤ p.maxStorage)

/-- The defaults of rule R9: 1024 bytes, 32-bit counters, `RESET_CAPACITY = MAX_STORAGE`
(log entry 1). -/
def Params.default : Params := { maxStorage := 1024, cntW := 32, resetCapacity := 1024 }

/-- `POLY`, the CRC generator polynomial (rules R9, R10). -/
def poly : Half := 0x1021#16

/-- `CRC_INIT`, the initial value of the accumulator (rules R9, R10). -/
def crcInit : Half := 0xFFFF#16

/-- `TABLE_N`, the number of entries of `table` (rules R9, R10). -/
def tableN : Nat := 256

/-- FREE VALUE (log entry 3): what slot `slot` of `storage` holds while no RB.PUSH has written it since
the `resets`-th hardware reset (rule R26: any value, not necessarily the same after each reset). -/
opaque unspecifiedByte (resets slot : Nat) : Byte

/-- FREE VALUE (log entry 3): what entry `index` of `table` holds while the table build has not written
it since the `resets`-th hardware reset (rule R33). -/
opaque unspecifiedHalf (resets index : Nat) : Half

end Sys2Proof.Config
end

