-- ==== Sys2Proof/Machine/State.lean ====
section
/-! DEFINITION. The state of the block, its responses, the ways a step can stop, and the state right after
hardware reset (rules R20 to R36, R70, R75, R85, R191). -/

namespace Sys2Proof.Machine

/-- The four status codes of a response, the block's only error report (rules R76, R160). -/
inductive Status where
  /-- `OK`, 0. -/
  | ok
  /-- `PARTIAL`, 1: the source's `PartialTransfer`, not an error (rule R162). -/
  | partialTransfer
  /-- `INVALID_CAPACITY`, 2 (rule R161). -/
  | invalidCapacity
  /-- `ILLEGAL_CMD`, 3 (rule R163). -/
  | illegalCmd
  deriving DecidableEq, Repr

/-- A response frame (rules R70, R75) with the level of the output `ev_trunc` during its transfer
(rules R85, R167). -/
structure Response where
  /-- `rsp_status`. -/
  status : Status
  /-- `rsp_value`. -/
  value : Word
  /-- The output payload, first byte first: the transfers of the `dout` channel of this command. -/
  out : List Byte
  /-- `ev_trunc` during the response transfer. -/
  evTrunc : Bool
  deriving DecidableEq, Repr

/-- The state of the block and of its ports.

The first eight fields are the architectural state, all of it (rule R20). The widths `CAP_W`, `IDX_W` and
`CNT_W` are parameters, so the registers are naturals with the range invariant of rule R25, as decision D3
allows; every addition to a counter is truncated to `CNT_W` bits (rule R24).

The two memories are lists of (address, contents) in rising order of address that list the locations written
since the last hardware reset; an unlisted location holds a free value (rules R26, R33; log entry 3).

The other fields are the ports of rule R85 at transaction level and the model's own bookkeeping. -/
structure State where
  /-- `storage[0 .. MAX_STORAGE-1]`, one byte each (rules R21, R26, R51). -/
  storage : List Host.Cell
  /-- `capacity` (rule R22). -/
  capacity : Nat
  /-- `head`, the write cursor (rule R23). -/
  head : Nat
  /-- `tail`, the read cursor (rule R23). -/
  tail : Nat
  /-- `total_pushed` (rule R24). -/
  totalPushed : Nat
  /-- `total_popped` (rule R24). -/
  totalPopped : Nat
  /-- `table[0 .. 255]`, 16 bits each (rules R31, R33, R52). -/
  table : List (Nat × Half)
  /-- `ready` (rule R32). -/
  ready : Bool
  /-- The input `rst` (rules R85, R190). -/
  rst : Bool
  /-- The words the host presents on the command channel and the block has not accepted, first word first
  (rules R58, R85). -/
  cmdIn : List Word
  /-- The bytes the host presents on the input payload channel and the block has not taken, first byte
  first (rule R85). -/
  din : List Byte
  /-- The input `dout_ready`: the host takes output payload bytes (rules R85, R200). -/
  doutReady : Bool
  /-- The input `rsp_ready`: the host takes responses (rules R85, R200). -/
  rspReady : Bool
  /-- The command in progress: the word accepted and not yet answered; `none` when the block is idle
  (rules R86, R190). -/
  cmdWord : Option Word
  /-- The responses transferred so far, oldest first (rules R70, R86). No command reads it. -/
  rsp : List Response
  /-- MODEL'S OWN: the parameters of this build (rule R9). No step writes it. -/
  params : Config.Params
  /-- MODEL'S OWN: how many hardware resets there have been, the argument that makes the free values of
  rules R26 and R33 fresh after each one (log entry 3). -/
  resets : Nat
  deriving DecidableEq, Repr

/-- Why a step stops. The block itself has no exception and no fatal condition (rules R160, R166); the one
constructor marks states the spec says are never reached. -/
inductive Fault where
  /-- Raised by RB.PUSH and RB.POP in a state outside the index invariant of rule R25, where their byte
  step would address a slot of `storage` that does not exist (rule R51). SAFE: no run from reset meets it,
  and a state outside the invariant is none of the machine's. -/
  | noSuchSlot
  deriving DecidableEq, Repr

/-- Why a step is refused: the model gives every command its meaning, so no step is. -/
inductive Refusal where
  /-- Raised by an arm of `exec` whose instruction has no meaning yet; SAFE. No arm is such an arm. -/
  | notModelled (mnemonic : String)
  deriving DecidableEq, Repr

/-- The machine right after hardware reset (rule R191) with the default parameters (rule R9): `capacity` is
`RESET_CAPACITY`, the indices, the counters and `ready` are 0, and no location of `storage` or `table` is
specified. The ports are idle: `rst` is 0 again, no command is in progress, the host presents nothing and
takes what it is sent (log entries 1, 2, 3, 5). -/
def State.reset : State where
  storage := []
  capacity := Config.Params.default.resetCapacity
  head := 0
  tail := 0
  totalPushed := 0
  totalPopped := 0
  table := []
  ready := false
  rst := false
  cmdIn := []
  din := []
  doutReady := true
  rspReady := true
  cmdWord := none
  rsp := []
  params := Config.Params.default
  resets := 0

end Sys2Proof.Machine
end

