-- ==== Sys2Proof/Machine/Operands.lean ====
section
/-! DEFINITION. Operand and result forms: truncation and zero extension (rules R11, R12), the input payload a
command takes from the payload channel (rules R70, R73, R74), the numbers of the status codes (rule R76). -/

namespace Sys2Proof.Machine

/-- `trunc_N(v) = v mod 2^N` (rule R11). -/
def truncN (n v : Nat) : Nat := v % 2 ^ n

/-- `zext_32(v)`: a 16-bit value in the low half of a response value, the upper bits 0 (rules R12, R77). -/
def zext32 (v : Half) : Word := v.setWidth 32

/-- A natural as a response value (rule R77): counts and registers, all below `2^32` (rules R115, R152). -/
def valueOf (v : Nat) : Word := BitVec.ofNat 32 v

/-- The 2-bit code of a status (rule R76). -/
def Status.code : Status → BitVec 2
  | .ok => 0#2
  | .partialTransfer => 1#2
  | .invalidCapacity => 2#2
  | .illegalCmd => 3#2

/-- All `len` payload bytes of a command are there for the block to take (rules R74, R200). -/
def State.payloadPresented (len : Nat) (s : State) : Bool := decide (len ≤ s.din.length)

/-- `in[0 .. len-1]`: the next `len` bytes of the payload channel, whatever the host meant (rule R200). -/
def State.payload (len : Nat) (s : State) : List Byte := s.din.take len

/-- The block has taken `len` payload bytes. -/
def State.consumePayload (len : Nat) (s : State) : State := { s with din := s.din.drop len }

end Sys2Proof.Machine
end

