-- ==== Sys2Proof/Machine/Flags.lean ====
section
/-! DEFINITION. The derived predicates and quantities of the ring buffer, computed from the registers each
time (rules R27 to R29, R12), the two status registers (rules R153, R154), the status of a transfer, and the
check of rule R25. -/

namespace Sys2Proof.Machine

/-- `empty := (head == tail)` (rule R27). -/
def State.empty (s : State) : Bool := s.head == s.tail

/-- `(i + 1) mod capacity`, the index after `i` (rules R106, R110, R115 (a)). -/
def State.nextIndex (s : State) (i : Nat) : Nat := (i + 1) % s.capacity

/-- `full := ((head + 1) mod capacity == tail)` (rule R27). -/
def State.full (s : State) : Bool := s.nextIndex s.head == s.tail

/-- `occupancy := (head - tail) mod capacity`, the bytes queued, in the two cases of rule R28. -/
def State.occupancy (s : State) : Nat :=
  if s.tail ≤ s.head then s.head - s.tail else s.head + s.capacity - s.tail

/-- `free := capacity - 1 - occupancy`, the bytes an RB.PUSH can still write (rule R28). -/
def State.free (s : State) : Nat := s.capacity - 1 - s.occupancy

/-- The register `RB_STATUS`: bit 0 `EMPTY`, bit 1 `FULL`, bits 31:2 read 0 (rule R153). -/
def State.rbStatus (s : State) : Word :=
  0#30 ++ (BitVec.ofBool s.full ++ BitVec.ofBool s.empty)

/-- The register `CRC_STATUS`: bit 0 `READY`, bits 31:1 read 0 (rule R154). -/
def State.crcStatus (s : State) : Word := 0#31 ++ BitVec.ofBool s.ready

/-- `OK` when a transfer moved all it was asked, else `PARTIAL` (rules R107, R111, R162). -/
def transferStatus (count asked : Nat) : Status :=
  if count = asked then .ok else .partialTransfer

/-- The index invariant of rule R25: every access of RB.PUSH and RB.POP is then to a slot that exists
(rules R51, R63). -/
def State.indicesInRange (s : State) : Bool :=
  decide (1 ≤ s.capacity ∧ s.capacity ≤ s.params.maxStorage ∧ s.head < s.capacity ∧ s.tail < s.capacity)

end Sys2Proof.Machine
end

