-- ==== Sys2Proof/Machine/Ops.lean ====
section
/-! DEFINITION. The named operations the meanings are written over: reading and writing a location of a
memory, the byte steps of the ring buffer, accepting a command word, ending a command with its response,
the answer to a reserved word, and hardware reset. The block takes no exception and returns from none
(rules R160, R166): its only abnormal outcome is a status in a response. -/

namespace Sys2Proof.Machine

/-- What the memory `m` lists at address `a`; `none` where it lists nothing. -/
def Memory.read {α : Type} : List (Nat × α) → Nat → Option α
  | [], _ => none
  | (k, v) :: m, a => if k = a then some v else Memory.read m a

/-- The memory `m` with `v` at address `a`, every other address as before, in rising order of address. -/
def Memory.write {α : Type} : List (Nat × α) → Nat → α → List (Nat × α)
  | [], a, v => [(a, v)]
  | (k, w) :: m, a, v =>
    if a < k then (a, v) :: (k, w) :: m
    else if a = k then (a, v) :: m
    else (k, w) :: Memory.write m a v

/-- The canonical form of a memory of `size` locations: the addresses rise strictly and each is a location.
An unlisted location reads as no value, so no entry can equal what an unlisted one reads as. -/
def Memory.wf {α : Type} (size : Nat) (m : List (Nat × α)) : Bool :=
  decide (m.Pairwise (fun c d => c.1 < d.1)) && m.all (fun c => decide (c.1 < size))

/-- The byte slot `i` of `storage` holds: the byte last written there since hardware reset, a free value if
none was (rules R21, R26). -/
def State.slot (s : State) (i : Nat) : Byte :=
  (Memory.read s.storage i).getD (Config.unspecifiedByte s.resets i)

/-- `TblRead(i)` (rules R12, R52); a free value while no table build has written the entry (rule R33). -/
def State.tblRead (s : State) (i : Nat) : Half :=
  (Memory.read s.table i).getD (Config.unspecifiedHalf s.resets i)

/-- `TblWrite(i, v)` (rules R12, R52). -/
def State.tblWrite (s : State) (i : Nat) (v : Half) : State :=
  { s with table := Memory.write s.table i v }

/-- One byte step of RB.PUSH: `MemWrite(head, 1, b)`, then `head <- (head + 1) mod capacity` (rule R106). -/
def State.pushByte (s : State) (b : Byte) : State :=
  { s with storage := Memory.write s.storage s.head b, head := s.nextIndex s.head }

/-- The cursor move of one byte step of RB.POP: `tail <- (tail + 1) mod capacity` (rule R110). -/
def State.advanceTail (s : State) : State := { s with tail := s.nextIndex s.tail }

/-- The host takes all of the response `r`: its output bytes, if it has any, and the response itself
(rules R86, R200). That both are taken in one step or neither is, so that an RB.POP whose bytes are taken and whose
response is not waits with its bytes untaken, is the model's choice: DESIGN CHOICE, log entry 11. -/
def State.takes (s : State) (r : Response) : Bool :=
  s.rspReady && (r.out.isEmpty || s.doutReady)

/-- The state `t` after the response transfer that ends its command: the block is idle again (rule R86). -/
def State.answered (t : State) (r : Response) : State := { t with cmdWord := none, rsp := t.rsp ++ [r] }

/-- `respond(status, value, out)`: the command begun in `s` ends in `t` with the response `r`
(rules R12, R86). Where the host does not take the output, the block waits: the command stays
in progress and has no effect a later command can see (rules R13, R200; log entry 4). -/
def respond (s t : State) (r : Response) : State :=
  if s.takes r then t.answered r else s

/-- The response `(status, value, [])` with `ev_trunc` 0 (rule R77). -/
def plainResponse (status : Status) (value : Word) : Response :=
  { status := status, value := value, out := [], evTrunc := false }

/-- A reserved command word: `respond(ILLEGAL_CMD, 0, [])`, no state change, no payload consumed
(rules R78, R79, R163). -/
def illegalCommand (s : State) : State := respond s s (plainResponse .illegalCmd 0#32)

/-- The command the block works on next: the one in progress, else the first word on the command channel,
which it accepts (rules R58, R86). -/
def State.acceptCommand (s : State) : Option (Word × State) :=
  match s.cmdWord with
  | some cw => some (cw, s)
  | none =>
    match s.cmdIn with
    | [] => none
    | cw :: rest => some (cw, { s with cmdIn := rest, cmdWord := some cw })

/-- The host presents the frames `fs`, in order, after what it already presents: their words on the command
channel, their payloads on the payload channel (rules R58, R85). -/
def State.present (s : State) (fs : List Frame) : State :=
  { s with
    cmdIn := s.cmdIn ++ fs.map (fun f => f.word)
    din := s.din ++ fs.flatMap (fun f => f.payload) }

/-- The payload bytes still presented after hardware reset: a command in progress is abandoned, and the
bytes presented to it have been taken by it (rules R85, R190, R200; log entry 4). -/
def State.dinAfterReset (s : State) : List Byte :=
  match s.cmdWord with
  | some cw => s.din.drop (payloadLen cw)
  | none => s.din

/-- Hardware reset, `rst` sampled 1: every register takes its reset value, the contents of both memories
become unspecified anew, and a command in progress is abandoned without a response (rules R190, R191,
R193). -/
def hardwareReset (s : State) : State :=
  { s with
    storage := []
    capacity := s.params.resetCapacity
    head := 0
    tail := 0
    totalPushed := 0
    totalPopped := 0
    table := []
    ready := false
    cmdWord := none
    din := s.dinAfterReset
    resets := s.resets + 1 }

end Sys2Proof.Machine
end

