-- ==== Sys2Proof/Machine/Crc.lean ====
section
/-! DEFINITION. The CRC unit's one command CRC.CHECKSUM, with the lazy table build (rules R130 to R139). -/

namespace Sys2Proof.Machine

/-- One of the 8 iterations of rule R131: shift left one bit, truncate to 16 bits, and XOR with the
polynomial when the bit 15 shifted out was 1. -/
def crcShift (c : Half) : Half :=
  if c.getLsbD 15 then (c <<< 1) ^^^ Config.poly else c <<< 1

/-- `n` iterations of `crcShift`. -/
def crcShifts : Nat → Half → Half
  | 0, c => c
  | n + 1, c => crcShifts n (crcShift c)

/-- The value the table build writes to entry `i`: start with `i << 8`, iterate 8 times (rule R131). -/
def tableEntry (i : Nat) : Half := crcShifts 8 (BitVec.ofNat 16 i <<< 8)

/-- The first `n` writes of the table build, in increasing index (rule R131). -/
def State.buildEntries (s : State) : Nat → State
  | 0 => s
  | n + 1 => (s.buildEntries n).tblWrite n (tableEntry n)

/-- `BuildTable()`: all 256 entries, then `ready <- 1` (rule R131). -/
def State.buildTable (s : State) : State :=
  { s.buildEntries Config.tableN with ready := true }

/-- `if ready == 0 then BuildTable()` (rules R130, R134). -/
def State.ensureTable (s : State) : State := if s.ready then s else s.buildTable

/-- `idx <- (crc >> 8) XOR in[k]`, 8 bits (rule R133). -/
def crcIndex (crc : Half) (b : Byte) : Byte := crc.extractLsb' 8 8 ^^^ b

/-- `crc <- trunc_16(crc << 8) XOR TblRead(idx)` (rule R133). -/
def State.crcStep (s : State) (crc : Half) (b : Byte) : Half :=
  (crc <<< 8) ^^^ s.tblRead (crcIndex crc b).toNat

/-- The accumulation over the payload, first byte first (rule R133). -/
def State.crcLoop (s : State) : Half → List Byte → Half
  | crc, [] => crc
  | crc, b :: bs => s.crcLoop (s.crcStep crc b) bs

/-- CRC.CHECKSUM once its payload is there (rule R130). -/
def checksumPayload (len : Nat) (s : State) : State :=
  let t := (s.consumePayload len).ensureTable
  respond s t (plainResponse .ok (zext32 (t.crcLoop Config.crcInit (s.payload len))))

/-- CRC.CHECKSUM: it waits for its payload, then runs (rules R130, R200). -/
def checksumCommand (len : Nat) (s : State) : State :=
  if s.payloadPresented len then checksumPayload len s else s

/-- CRC.CHECKSUM. -/
def execChecksum (len : Nat) (s : State) : Host.Outcome State Fault Refusal :=
  .next (checksumCommand len s)

/-- One byte of the table-free loop of rule R138: XOR the byte into the high half, shift 8 times. -/
def crcSerialStep (crc : Half) (b : Byte) : Half := crcShifts 8 (crc ^^^ (b.setWidth 16 <<< 8))

/-- The table-free loop of rule R138 over a payload, from the accumulator `crc`. No command runs it: it is
the reference CRC.CHECKSUM is compared with. -/
def crcSerial : Half → List Byte → Half
  | crc, [] => crc
  | crc, b :: bs => crcSerial (crcSerialStep crc b) bs

end Sys2Proof.Machine
end

