-- ==== Sys2Proof/Machine/RingBuffer.lean ====
section
/-! DEFINITION. The ring-buffer commands RB.CONFIGURE, RB.RESET, RB.PUSH and RB.POP (rules R100 to R116). -/

namespace Sys2Proof.Machine

/-- RB.CONFIGURE is asked for a capacity it can set (rules R101, R102): the whole operand is compared
(rule R103 (f)). -/
def State.capacityValid (s : State) (c : Nat) : Bool := decide (1 ≤ c ∧ c ≤ s.params.maxStorage)

/-- The effect of a successful RB.CONFIGURE (rule R101). -/
def State.configured (s : State) (c : Nat) : State := { s with capacity := c, head := 0, tail := 0 }

/-- RB.CONFIGURE (rules R101 to R103). -/
def configureCommand (c : Nat) (s : State) : State :=
  if s.capacityValid c then respond s (s.configured c) (plainResponse .ok 1#32)
  else respond s s (plainResponse .invalidCapacity 0#32)

/-- The effect of RB.RESET (rule R104). -/
def State.bufferReset (s : State) : State :=
  { s with head := 0, tail := 0, totalPushed := 0, totalPopped := 0 }

/-- RB.RESET (rule R104). -/
def resetCommand (s : State) : State := respond s s.bufferReset (plainResponse .ok 0#32)

/-- The loop of RB.PUSH over the payload bytes not yet looked at, `count` of them stored so far: `full` is
evaluated before each byte, and the loop stops at the first byte that finds the buffer full (rule R106). It
answers the state and the number of bytes stored. -/
def pushLoop : List Byte → State → Nat → State × Nat
  | [], s, count => (s, count)
  | b :: bs, s, count => if s.full then (s, count) else pushLoop bs (s.pushByte b) (count + 1)

/-- `total_pushed <- trunc_CNT_W(total_pushed + count)` (rules R24, R107). -/
def State.countPushed (s : State) (count : Nat) : State :=
  { s with totalPushed := truncN s.params.cntW (s.totalPushed + count) }

/-- The response of an RB.PUSH of `len` bytes that stored `count` (rules R77, R107); `ev_trunc` is 1 exactly
when its status is `PARTIAL` (rule R167). -/
def pushResponse (len count : Nat) : Response :=
  { status := transferStatus count len, value := valueOf count, out := [],
    evTrunc := decide (transferStatus count len = .partialTransfer) }

/-- RB.PUSH once its payload is there: all of it is consumed, also the bytes that are not stored
(rules R74, R106, R107). -/
def pushPayload (len : Nat) (s : State) : State :=
  let r := pushLoop (s.payload len) (s.consumePayload len) 0
  respond s (r.1.countPushed r.2) (pushResponse len r.2)

/-- RB.PUSH: it waits for its payload, then runs (rules R105 to R109, R200). -/
def pushCommand (len : Nat) (s : State) : State :=
  if s.payloadPresented len then pushPayload len s else s

/-- The loop of RB.POP with `n` bytes still asked and `out` copied so far: `empty` is evaluated before each
byte (rule R110). It answers the state and the bytes copied, oldest first. -/
def popLoop : Nat → State → List Byte → State × List Byte
  | 0, s, out => (s, out)
  | n + 1, s, out => if s.empty then (s, out) else popLoop n s.advanceTail (out ++ [s.slot s.tail])

/-- `total_popped <- trunc_CNT_W(total_popped + count)` (rules R24, R111). -/
def State.countPopped (s : State) (count : Nat) : State :=
  { s with totalPopped := truncN s.params.cntW (s.totalPopped + count) }

/-- The response of an RB.POP of at most `maxLen` bytes that copied `out` (rules R77, R111); RB.POP never
raises `ev_trunc`. -/
def popResponse (maxLen : Nat) (out : List Byte) : Response :=
  { status := transferStatus out.length maxLen, value := valueOf out.length, out := out, evTrunc := false }

/-- RB.POP (rules R110 to R113). -/
def popCommand (maxLen : Nat) (s : State) : State :=
  let r := popLoop maxLen s []
  respond s (r.1.countPopped r.2.length) (popResponse maxLen r.2)

/-- RB.CONFIGURE. -/
def execConfigure (c : Nat) (s : State) : Host.Outcome State Fault Refusal :=
  .next (configureCommand c s)

/-- RB.RESET. -/
def execReset (s : State) : Host.Outcome State Fault Refusal :=
  .next (resetCommand s)

/-- RB.PUSH. Outside the index invariant of rule R25 its `storage[head]` may be no slot, and it stops. -/
def execPush (len : Nat) (s : State) : Host.Outcome State Fault Refusal :=
  if s.indicesInRange then .next (pushCommand len s) else .fault .noSuchSlot

/-- RB.POP. Outside the index invariant of rule R25 its `storage[tail]` may be no slot, and it stops. -/
def execPop (maxLen : Nat) (s : State) : Host.Outcome State Fault Refusal :=
  if s.indicesInRange then .next (popCommand maxLen s) else .fault .noSuchSlot

end Sys2Proof.Machine
end

