-- ==== Sys2Proof/Machine/System.lean ====
section
/-! DEFINITION. SYS.RDREG and the register map (rules R150 to R157). -/

namespace Sys2Proof.Machine

/-- `Reg(n)` for the registers 0 to 7, zero-extended to 32 bits (rule R152). -/
def State.regValue (s : State) : Reg → Word
  | .rbCapacity => valueOf s.capacity
  | .rbHead => valueOf s.head
  | .rbTail => valueOf s.tail
  | .rbStatus => s.rbStatus
  | .rbCount => valueOf s.occupancy
  | .rbTotalPushed => valueOf s.totalPushed
  | .rbTotalPopped => valueOf s.totalPopped
  | .crcStatus => s.crcStatus

/-- SYS.RDREG answering `value`: nothing is written (rules R150, R151). -/
def rdregCommand (value : Word) (s : State) : State := respond s s (plainResponse .ok value)

/-- SYS.RDREG of a register 0 to 7. -/
def execRdreg (r : Reg) (s : State) : Host.Outcome State Fault Refusal :=
  .next (rdregCommand (s.regValue r) s)

/-- SYS.RDREG of register 8, the constant `MAX_STORAGE` (rule R152). -/
def execRdregMaxStorage (s : State) : Host.Outcome State Fault Refusal :=
  .next (rdregCommand (valueOf s.params.maxStorage) s)

end Sys2Proof.Machine
end

