-- ==== Sys2Proof/Machine/Dispatch.lean ====
section
/-! DEFINITION. The meaning of each command: one arm per constructor of `Instr`, one direct call each. -/

namespace Sys2Proof.Machine

def exec (i : Instr) (s : State) : Host.Outcome State Fault Refusal :=
  match i with
  | .configure c => Sys2Proof.Machine.execConfigure c s
  | .reset => Sys2Proof.Machine.execReset s
  | .push len => Sys2Proof.Machine.execPush len s
  | .pop maxLen => Sys2Proof.Machine.execPop maxLen s
  | .checksum len => Sys2Proof.Machine.execChecksum len s
  | .rdreg r => Sys2Proof.Machine.execRdreg r s
  | .rdregMaxStorage => Sys2Proof.Machine.execRdregMaxStorage s

end Sys2Proof.Machine
end

