-- ==== Sys2Proof/Machine/Step.lean ====
section
/-! DEFINITION. One step of the block: hardware reset, or one command, or nothing (rules R58, R169, R190). -/

namespace Sys2Proof.Machine

/-- Serve the command word `cw`, which `s` has accepted: a reserved word is answered `ILLEGAL_CMD`, any other
runs its command (rules R78, R81, R165). -/
def serve (cw : Word) (s : State) : Host.Outcome State Fault Refusal :=
  match decode cw with
  | .ok i => exec i s
  | .error _ => .next (illegalCommand s)

/-- One step. With `rst` 1 the block is reset (rule R190). Otherwise it works on the command in progress or
accepts the next one, and runs it from its first line to its `respond` (rules R13, R58, R86); with no command
presented it is idle and keeps all state (rules R169, R175). -/
def step (s : State) : Host.Outcome State Fault Refusal :=
  if s.rst then .next (hardwareReset s)
  else
    match s.acceptCommand with
    | none => .next s
    | some (cw, t) => serve cw t

/-- The state `s` with the host presenting the command word of bits `w` as the next command, its payload a
run of zero bytes, and taking the response: `step` accepts and runs exactly that command (log entry 6). A
command in progress is dropped, since it would be served first. -/
def State.withFetchWord (s : State) (nbits w : Nat) : State :=
  let cw : Word := BitVec.ofNat 32 (w % 2 ^ nbits)
  { s with
    rst := false
    cmdWord := none
    cmdIn := cw :: s.cmdIn
    din := List.replicate (payloadLen cw) 0#8 ++ s.din
    doutReady := true
    rspReady := true }

end Sys2Proof.Machine
end

