-- ==== Sys2Proof/Machine/Assembler.lean ====
section
/-! DEFINITION. The textual form of a command (rule R83) and the pseudo-commands (rule R84): one line of text
to the frame it stands for. The block itself reads no text; a host writes its programs in it. -/

namespace Sys2Proof.Machine

/-- A part of a line: a run of characters without spaces, or the text between two double quotes. -/
inductive Token where
  | word (cs : List Char)
  | text (cs : List Char)
  deriving DecidableEq, Repr

/-- The word read so far, `cur` in reverse, in front of the tokens after it. -/
def flushWord (cur : List Char) (ts : List Token) : List Token :=
  if cur.isEmpty then ts else .word cur.reverse :: ts

/-- The tokens of a line. `quoted` is the text of the open string, in reverse, if one is open; a `;` outside
a string starts a comment (rule R83). `none`: a string is not closed, or a quote stands inside a word. -/
def lex : Option (List Char) → List Char → List Char → Option (List Token)
  | none, cur, [] => some (flushWord cur [])
  | none, cur, c :: cs =>
    if c = ';' then some (flushWord cur [])
    else if c = ' ' then (lex none [] cs).map (flushWord cur)
    else if c = '"' then (if cur.isEmpty then lex (some []) [] cs else none)
    else lex none (c :: cur) cs
  | some _, _, [] => none
  | some q, _, c :: cs =>
    if c = '"' then (lex none [] cs).map (fun ts => .text q.reverse :: ts)
    else lex (some (c :: q)) [] cs

/-- The value of a digit, hexadecimal ones included. -/
def digitValue (c : Char) : Option Nat :=
  if '0'.toNat ≤ c.toNat ∧ c.toNat ≤ '9'.toNat then some (c.toNat - '0'.toNat)
  else if 'a'.toNat ≤ c.toNat ∧ c.toNat ≤ 'f'.toNat then some (c.toNat - 'a'.toNat + 10)
  else if 'A'.toNat ≤ c.toNat ∧ c.toNat ≤ 'F'.toNat then some (c.toNat - 'A'.toNat + 10)
  else none

/-- The number the digits stand for in base `base`, `acc` being the value of those before them. -/
def digits (base acc : Nat) : List Char → Option Nat
  | [] => some acc
  | c :: cs =>
    match digitValue c with
    | some d => if d < base then digits base (base * acc + d) cs else none
    | none => none

/-- A number, decimal or `0x` hexadecimal (rule R83). -/
def parseNumber : List Char → Option Nat
  | [] => none
  | '0' :: 'x' :: c :: cs => digits 16 0 (c :: cs)
  | c :: cs => digits 10 0 (c :: cs)

/-- A number that fits the 24-bit operand field (rules R71, R73). -/
def parseArg (cs : List Char) : Option Nat :=
  match parseNumber cs with
  | some n => if n < 2 ^ 24 then some n else none
  | none => none

/-- A byte value, 0 to 255. -/
def parseByte : Token → Option Byte
  | .word cs =>
    match parseNumber cs with
    | some n => if n < 256 then some (BitVec.ofNat 8 n) else none
    | none => none
  | .text _ => none

/-- A character as its ASCII code (rule R83). -/
def asciiByte (c : Char) : Option Byte :=
  if c.toNat < 128 then some (BitVec.ofNat 8 c.toNat) else none

/-- A byte list: one string, or any number of byte values (rule R83). -/
def parseBytes : List Token → Option (List Byte)
  | [.text cs] => cs.mapM asciiByte
  | ts => ts.mapM parseByte

/-- The names of the registers 0 to 8 (rule R152). -/
def registerNames : List (String × Nat) :=
  [("RB_CAPACITY", 0), ("RB_HEAD", 1), ("RB_TAIL", 2), ("RB_STATUS", 3), ("RB_COUNT", 4),
   ("RB_TOTAL_PUSHED", 5), ("RB_TOTAL_POPPED", 6), ("CRC_STATUS", 7), ("RB_MAX_STORAGE", 8)]

/-- `<reg>`: a register name, or a number. A number above 8 makes a reserved word, which rule R156 writes so
(log entry 7). -/
def parseReg (cs : List Char) : Option Nat :=
  match registerNames.find? (fun r => decide (r.1.toList = cs)) with
  | some r => some r.2
  | none => parseArg cs

/-- The frame of a command with opcode `op` whose operand is `arg` and that has no payload. -/
def wordFrame (op : BitVec 8) (arg : Nat) : Frame := { word := commandWord op arg, payload := [] }

/-- The frame of a command with opcode `op` over the payload `bytes`; `len` is the number of bytes and is
not spelled (rule R83). `none` where `len` does not fit the operand field. -/
def payloadFrame (op : BitVec 8) (bytes : List Byte) : Option Frame :=
  if bytes.length < 2 ^ 24 then some { word := commandWord op bytes.length, payload := bytes } else none

/-- The frame of a mnemonic and its operands: the table of rule R83, then the pseudo-commands of rule R84. -/
def assembleTokens (mnemonic : List Char) (operands : List Token) : Option Frame :=
  if mnemonic = "rb.configure".toList then
    match operands with
    | [.word n] => (parseArg n).map (wordFrame opConfigure)
    | _ => none
  else if mnemonic = "rb.reset".toList then
    match operands with
    | [] => some (wordFrame opReset 0)
    | _ => none
  else if mnemonic = "rb.push".toList then (parseBytes operands).bind (payloadFrame opPush)
  else if mnemonic = "rb.pop".toList then
    match operands with
    | [.word n] => (parseArg n).map (wordFrame opPop)
    | _ => none
  else if mnemonic = "crc.checksum".toList then (parseBytes operands).bind (payloadFrame opChecksum)
  else if mnemonic = "sys.rdreg".toList then
    match operands with
    | [.word n] => (parseReg n).map (wordFrame opRdreg)
    | _ => none
  else if mnemonic = "rb.push1".toList then
    match operands with
    | [b] => (parseByte b).bind (fun v => payloadFrame opPush [v])
    | _ => none
  else if mnemonic = "rb.pop1".toList then
    match operands with
    | [] => some (wordFrame opPop 1)
    | _ => none
  else if mnemonic = "rb.status".toList then
    match operands with
    | [] => some (wordFrame opRdreg 3)
    | _ => none
  else if mnemonic = "rb.count".toList then
    match operands with
    | [] => some (wordFrame opRdreg 4)
    | _ => none
  else if mnemonic = "crc.ready".toList then
    match operands with
    | [] => some (wordFrame opRdreg 7)
    | _ => none
  else none

/-- The frame a line of text stands for (rules R83, R84); `none` where the line is no command. -/
def assembleLine (line : String) : Option Frame :=
  match lex none [] line.toList with
  | some (.word m :: operands) => assembleTokens m operands
  | _ => none

end Sys2Proof.Machine
end

