-- ==== Sys2Proof/Machine/Ports.lean ====
section
/-! DEFINITION. The outputs of the block (rule R85), as functions of the state: their levels once every transfer
that the inputs of the state allow has been made (rules R86, R167, R191; log entry 15). No step reads them. -/

namespace Sys2Proof.Machine

/-- The output `cmd_ready`: the block accepts a command word only when it is idle and `rst` is 0
(rules R86 (a), R190). -/
def State.cmdReady (s : State) : Bool := !s.rst && s.cmdWord.isNone

/-- The output `din_ready`: the command in progress still lacks payload bytes (rules R74, R86 (b), R200). -/
def State.dinReady (s : State) : Bool :=
  match s.cmdWord with
  | none => false
  | some cw => !s.rst && !s.payloadPresented (payloadLen cw)

/-- The response the outcome `o` adds to those transferred in `s`. -/
def newResponse (s : State) (o : Host.Outcome State Fault Refusal) : Option Response :=
  match o with
  | .next t => (t.rsp.drop s.rsp.length).head?
  | .fault _ => none
  | .refused _ => none

/-- The response the command in progress has ready: the one it would be answered with if the host took all
output now; `none` while it lacks payload, while `rst` is 1, and when the block is idle. -/
def State.responseDue (s : State) : Option Response :=
  if s.rst then none
  else
    match s.cmdWord with
    | none => none
    | some cw => newResponse s (serve cw { s with doutReady := true, rspReady := true })

/-- `dout_data` where `dout_valid` is 1: the first output byte of the response due, while the host takes none
(rules R85, R200; log entries 11, 15). -/
def State.doutOffered (s : State) : Option Byte :=
  match s.responseDue with
  | none => none
  | some r => if s.doutReady then none else r.out.head?

/-- The response on the response channel where `rsp_valid` is 1: the response due, once its output bytes are
taken (rules R85, R86 (c)). DESIGN CHOICE, log entry 11: if `dout_ready` falls before `rsp_ready` rises, an RB.POP's response
is offered no longer, and its first output byte is offered again. -/
def State.rspOffered (s : State) : Option Response :=
  match s.responseDue with
  | none => none
  | some r => if r.out.isEmpty || s.doutReady then some r else none

/-- The output `dout_valid` (rules R85, R191). -/
def State.doutValid (s : State) : Bool := s.doutOffered.isSome

/-- The output `rsp_valid` (rules R85, R191). -/
def State.rspValid (s : State) : Bool := s.rspOffered.isSome

/-- The output `ev_trunc`: 1 during the response transfer of an RB.PUSH answered `PARTIAL`, that is where that
response is offered and taken, and 0 at all other times (rules R85, R167, R169). -/
def State.evTruncLevel (s : State) : Bool :=
  match s.rspOffered with
  | none => false
  | some r => s.rspReady && r.evTrunc

end Sys2Proof.Machine
end

