-- ==== Sys2Proof/Safety.lean ====
section
/-! DEFINITION. The terms the claims use: the invariants of reachable states (rules R9, R22 to R26, R32), the
queue the ring buffer holds (rule R28), the conservation law (rule R36), which unit a command belongs to (rule R3), what a host can see, and
runs. -/

namespace Sys2Proof.Machine

/-- The slot of the byte `k` places behind the oldest queued one (rule R28). -/
def State.queueSlot (s : State) (k : Nat) : Nat := (s.tail + k) % s.capacity

/-- The slot `k` places from `head`, where the byte `in[k]` of an RB.PUSH goes (rule R108). -/
def State.pushSlot (s : State) (k : Nat) : Nat := (s.head + k) % s.capacity

/-- The queued bytes, oldest first (rule R28). -/
def State.queue (s : State) : List Byte :=
  (List.range s.occupancy).map (fun k => s.slot (s.queueSlot k))

/-- The index invariant of rule R25. -/
structure IndexInv (s : State) : Prop where
  capacity_pos : 1 ≤ s.capacity
  capacity_le : s.capacity ≤ s.params.maxStorage
  head_lt : s.head < s.capacity
  tail_lt : s.tail < s.capacity

/-- The two counters hold `CNT_W` bits (rule R24). -/
structure CounterInv (s : State) : Prop where
  pushed_lt : s.totalPushed < 2 ^ s.params.cntW
  popped_lt : s.totalPopped < 2 ^ s.params.cntW

/-- Both memories are in canonical form and list only locations that exist (rules R51, R52). -/
structure MemoryInv (s : State) : Prop where
  storage_wf : Memory.wf s.params.maxStorage s.storage = true
  table_wf : Memory.wf Config.tableN s.table = true

/-- `ready == 1` implies that `table[i]` is the value of rule R132 for every `i` (rule R32). -/
def ReadyInv (s : State) : Prop :=
  s.ready = true → ∀ i, i < Config.tableN → Memory.read s.table i = some (tableEntry i)

/-- Every queued slot was written by an RB.PUSH (rule R26). -/
def QueuedWritten (s : State) : Prop :=
  ∀ k, k < s.occupancy → ∃ b, Memory.read s.storage (s.queueSlot k) = some b

/-- What holds of every state a run from hardware reset reaches. -/
structure Inv (s : State) : Prop where
  params_valid : s.params.Valid
  index : IndexInv s
  counters : CounterInv s
  memory : MemoryInv s
  ready_table : ReadyInv s
  queued_written : QueuedWritten s

/-- `diff := trunc_CNT_W(total_pushed - total_popped)` of rule R36; `mod` is the mathematical remainder, also
of a negative number (rule R11). -/
def State.counterDiff (s : State) : Nat :=
  (((s.totalPushed : Int) - s.totalPopped) % (2 : Int) ^ s.params.cntW).toNat

/-- The conservation law of rule R36: `diff == occupancy`. -/
def Conserved (s : State) : Prop := s.counterDiff = s.occupancy

/-- A command of the RB unit (rules R2, R71). -/
def isRb : Instr → Bool
  | .configure _ => true
  | .reset => true
  | .push _ => true
  | .pop _ => true
  | .checksum _ => false
  | .rdreg _ => false
  | .rdregMaxStorage => false

/-- The number of payload bytes a command takes (rule R74). -/
def payloadBytes : Instr → Nat
  | .configure _ => 0
  | .reset => 0
  | .push len => len
  | .pop _ => 0
  | .checksum len => len
  | .rdreg _ => 0
  | .rdregMaxStorage => 0

/-- The host does its duty for the command `i`: its payload is there and its response is taken
(rule R200). -/
def HostServes (i : Instr) (s : State) : Prop :=
  payloadBytes i ≤ s.din.length ∧ s.rspReady = true ∧ s.doutReady = true

/-- The statuses a command may answer (rule R164). -/
def allowedStatuses : Instr → List Status
  | .configure _ => [.ok, .invalidCapacity]
  | .reset => [.ok]
  | .push _ => [.ok, .partialTransfer]
  | .pop _ => [.ok, .partialTransfer]
  | .checksum _ => [.ok]
  | .rdreg _ => [.ok]
  | .rdregMaxStorage => [.ok]

/-- A state whose registers and ports are those of `s` and whose memories agree with those of `s` wherever a
command can look: the queued slots, and the table once it is built. The other contents, the free values
among them, may differ (rules R26, R33, R35). -/
structure SameVisible (s t : State) : Prop where
  registers : t = { s with storage := t.storage, table := t.table, resets := t.resets }
  queue : t.queue = s.queue
  table : s.ready = true → ∀ i, i < Config.tableN → t.tblRead i = s.tblRead i

/-- A frame that does not reset the indices: no RB.RESET, and no RB.CONFIGURE that succeeds in a build with
`maxStorage` bytes (rules R101, R102, R104). Reserved words are such frames. -/
def KeepsIndices (maxStorage : Nat) (f : Frame) : Prop :=
  decode f.word ≠ .ok .reset ∧
  ∀ c, decode f.word = .ok (.configure c) → c = 0 ∨ maxStorage < c

/-- The bytes the frames `fs` stored, going by their responses: `in[0 .. count-1]` of each RB.PUSH
(rules R107, R114). -/
def storedBytes : List Frame → List Response → List Byte
  | f :: fs, r :: rs =>
    (match decode f.word with
      | .ok (.push _) => f.payload.take r.value.toNat
      | _ => []) ++ storedBytes fs rs
  | _, _ => []

/-- The bytes the frames `fs` returned: the `out` of each RB.POP (rules R111, R114). -/
def returnedBytes : List Frame → List Response → List Byte
  | f :: fs, r :: rs =>
    (match decode f.word with
      | .ok (.pop _) => r.out
      | _ => []) ++ returnedBytes fs rs
  | _, _ => []

/-- The bytes of the ASCII text `123456789`, the source's check message (rule R137). -/
def checkMessage : List Byte :=
  [0x31#8, 0x32#8, 0x33#8, 0x34#8, 0x35#8, 0x36#8, 0x37#8, 0x38#8, 0x39#8]

/-- The block is idle with nothing presented to it and a host that takes its output. -/
structure IdlePorts (s : State) : Prop where
  rst : s.rst = false
  cmdWord : s.cmdWord = none
  cmdIn : s.cmdIn = []
  din : s.din = []
  doutReady : s.doutReady = true
  rspReady : s.rspReady = true

end Sys2Proof.Machine
end

