-- ==== Sys2Proof/Certificates/Slice0/Obligations.lean ====
section
/-! DEFINITION. The statements for the provers. Each docstring names the rules it formalises and, where a
statement rests on a choice of the model, the log entry. -/

open Sys2Proof Sys2Proof.Machine

/-! ## Encoding -/

/-- Rules R71 to R73, R81: no bit of a command is dropped by encoding it. -/
def Obligations.DecodeOfEncodeIsIdentity : Prop :=
  ∀ i : Instr, i.WellFormed → decode (encode i) = .ok i

/-- Rules R71, R72, R79, R81: a word that decodes is the word of the command it decodes to, and that command
is well formed, so two words never decode to one command. -/
def Obligations.EncodeOfDecodedIsSameWord : Prop :=
  ∀ (w : Word) (i : Instr), decode w = .ok i → i.WellFormed ∧ encode i = w

/-- Rules R78, R79, R155: which words are reserved, and for which of the three reasons. -/
def Obligations.ReservedWordsByReason : Prop :=
  ∀ w : Word,
    (decode w = .error .opcode ↔ opOf w ∉ definedOpcodes) ∧
    (decode w = .error .resetOperand ↔ opOf w = opReset ∧ argOf w ≠ 0) ∧
    (decode w = .error .registerNumber ↔ opOf w = opRdreg ∧ 8 < argOf w)

/-- The decoding table V-SYS-3: words written out from the encoding of rules R71 and R72. -/
def Obligations.SampleWordsDecode : Prop :=
  decode 0x10000008#32 = .ok (.configure 8) ∧
  decode 0x10000000#32 = .ok (.configure 0) ∧
  decode 0x11000000#32 = .ok .reset ∧
  decode 0x11000001#32 = .error .resetOperand ∧
  decode 0x12000406#32 = .ok (.push 1030) ∧
  decode 0x12FFFFFF#32 = .ok (.push 16777215) ∧
  decode 0x13000003#32 = .ok (.pop 3) ∧
  decode 0x20000009#32 = .ok (.checksum 9) ∧
  decode 0x30000007#32 = .ok (.rdreg .crcStatus) ∧
  decode 0x30000008#32 = .ok .rdregMaxStorage ∧
  decode 0x30000009#32 = .error .registerNumber ∧
  decode 0x22000004#32 = .error .opcode

/-- Rule R74: the payload length is `arg` for the opcodes `0x12` and `0x20` and 0 for every other, and it is
the number of bytes the decoded command takes. -/
def Obligations.PayloadLengthFixedByWord : Prop :=
  (∀ w : Word, payloadLen w = if opOf w = 0x12#8 ∨ opOf w = 0x20#8 then argOf w else 0) ∧
  (∀ (w : Word) (i : Instr), decode w = .ok i → payloadLen w = payloadBytes i)

/-! ## A step -/

/-- Rules R58, R81, R86: an idle block accepts the next word presented and runs the command it decodes to; a
block with a command in progress goes on with that one. -/
def Obligations.StepRunsDecodedCommand : Prop :=
  ∀ (s : State) (w : Word) (i : Instr), s.rst = false → decode w = .ok i →
    (∀ rest, s.cmdWord = none → s.cmdIn = w :: rest →
      step s = exec i { s with cmdIn := rest, cmdWord := some w }) ∧
    (s.cmdWord = some w → step s = exec i s)

/-- Rule R78: a word with an undefined opcode is answered `(ILLEGAL_CMD, 0, [])`; nothing but the command
channel and the response log changes, no payload byte is taken, and the block is idle again. The same when the
word is already in progress, because its response was not taken before. The all-zero word and the all-ones word are
such words. -/
def Obligations.UndefinedOpcodeAnswersIllegal : Prop :=
  (∀ (s : State) (w : Word) (rest : List Word), s.rst = false → s.cmdWord = none → s.cmdIn = w :: rest →
    s.rspReady = true → opOf w ∉ [0x10#8, 0x11#8, 0x12#8, 0x13#8, 0x20#8, 0x30#8] →
    step s = .next { s with
      cmdIn := rest
      rsp := s.rsp ++ [{ status := .illegalCmd, value := 0#32, out := [], evTrunc := false }] }) ∧
  (∀ (s : State) (w : Word), s.rst = false → s.cmdWord = some w → s.rspReady = true →
    opOf w ∉ [0x10#8, 0x11#8, 0x12#8, 0x13#8, 0x20#8, 0x30#8] →
    step s = .next { s with
      cmdWord := none
      rsp := s.rsp ++ [{ status := .illegalCmd, value := 0#32, out := [], evTrunc := false }] }) ∧
  opOf 0x00000000#32 ∉ [0x10#8, 0x11#8, 0x12#8, 0x13#8, 0x20#8, 0x30#8] ∧
  opOf 0xFFFFFFFF#32 ∉ [0x10#8, 0x11#8, 0x12#8, 0x13#8, 0x20#8, 0x30#8]

/-- Rule R79: the reserved operand values are answered exactly as rule R78 says, whether the word is presented to
an idle block or already in progress, and every other operand of the six opcodes is legal. -/
def Obligations.ReservedOperandsAnswerIllegal : Prop :=
  (∀ (s : State) (w : Word) (rest : List Word), s.rst = false → s.cmdWord = none → s.cmdIn = w :: rest →
    s.rspReady = true →
    (opOf w = 0x11#8 ∧ argOf w ≠ 0) ∨ (opOf w = 0x30#8 ∧ 8 < argOf w) →
    step s = .next { s with
      cmdIn := rest
      rsp := s.rsp ++ [{ status := .illegalCmd, value := 0#32, out := [], evTrunc := false }] }) ∧
  (∀ (s : State) (w : Word), s.rst = false → s.cmdWord = some w → s.rspReady = true →
    (opOf w = 0x11#8 ∧ argOf w ≠ 0) ∨ (opOf w = 0x30#8 ∧ 8 < argOf w) →
    step s = .next { s with
      cmdWord := none
      rsp := s.rsp ++ [{ status := .illegalCmd, value := 0#32, out := [], evTrunc := false }] }) ∧
  (∀ w : Word, opOf w ∈ [0x10#8, 0x11#8, 0x12#8, 0x13#8, 0x20#8, 0x30#8] →
    ¬ ((opOf w = 0x11#8 ∧ argOf w ≠ 0) ∨ (opOf w = 0x30#8 ∧ 8 < argOf w)) → ∃ i, decode w = .ok i)

/-- Rules R169, R175: with no hardware reset, no command in progress and none presented, nothing happens. -/
def Obligations.IdleBlockKeepsState : Prop :=
  ∀ s : State, s.rst = false → s.cmdWord = none → s.cmdIn = [] → step s = .next s

/-- Rules R86 (a), R190: the command channel moves only in a step that begins with the block idle and `rst`
0, and then by one word. -/
def Obligations.WordsAcceptedOnlyWhenIdle : Prop :=
  ∀ s t : State, step s = .next t → t.cmdIn ≠ s.cmdIn →
    s.rst = false ∧ s.cmdWord = none ∧ ∃ w, s.cmdIn = w :: t.cmdIn

/-- Rules R190, R191: with `rst` 1 the step answers the reset state whatever the block was doing: the
registers at their reset values, no command in progress, no response given for an abandoned one, the words
presented not accepted, both memories with fresh unspecified contents, and the outputs idle, also once `rst` is 0
again. That the words presented stay so, that the reset count indexes the free values, and that `din_ready` is 0
are the model's choices (log entries 12, 3 and 15). -/
def Obligations.HardwareResetState : Prop :=
  ∀ s : State, s.rst = true → ∃ t, step s = .next t ∧
    t.capacity = s.params.resetCapacity ∧ t.head = 0 ∧ t.tail = 0 ∧
    t.totalPushed = 0 ∧ t.totalPopped = 0 ∧ t.ready = false ∧
    (∀ i, t.slot i = Config.unspecifiedByte (s.resets + 1) i) ∧
    (∀ i, t.tblRead i = Config.unspecifiedHalf (s.resets + 1) i) ∧
    t.cmdWord = none ∧ t.rsp = s.rsp ∧ t.cmdIn = s.cmdIn ∧ t.rst = true ∧ t.params = s.params ∧
    t.empty = true ∧ (1 ≤ s.params.resetCapacity → (t.full = true ↔ s.params.resetCapacity = 1)) ∧
    (∀ b, let u : State := { t with rst := b }
      u.rspValid = false ∧ u.doutValid = false ∧ u.evTruncLevel = false ∧ u.dinReady = false ∧
      u.cmdReady = !b)

/-- The reset column of rule R152's register map, for every build: what each of the nine registers reads after
hardware reset. -/
def Obligations.RegistersAfterHardwareReset : Prop :=
  ∀ s : State, s.params.Valid →
    ((hardwareReset s).regValue .rbCapacity).toNat = s.params.resetCapacity ∧
    (hardwareReset s).regValue .rbHead = 0#32 ∧
    (hardwareReset s).regValue .rbTail = 0#32 ∧
    (hardwareReset s).regValue .rbStatus = (if s.params.resetCapacity = 1 then 3#32 else 1#32) ∧
    (hardwareReset s).regValue .rbCount = 0#32 ∧
    (hardwareReset s).regValue .rbTotalPushed = 0#32 ∧
    (hardwareReset s).regValue .rbTotalPopped = 0#32 ∧
    (hardwareReset s).regValue .crcStatus = 0#32 ∧
    (valueOf (hardwareReset s).params.maxStorage).toNat = s.params.maxStorage

/-! ## What each command does, and that it completes -/

/-- Rule R101: a successful RB.CONFIGURE. The whole next state is given, so nothing else changes. -/
def Obligations.ConfigureSetsCapacity : Prop :=
  ∀ (s : State) (c : Nat), s.rspReady = true → 1 ≤ c → c ≤ s.params.maxStorage →
    ∃ t, exec (.configure c) s = .next t ∧
      t = { s with
        capacity := c, head := 0, tail := 0, cmdWord := none
        rsp := s.rsp ++ [{ status := .ok, value := 1#32, out := [], evTrunc := false }] } ∧
      t.empty = true ∧ (t.full = true ↔ c = 1) ∧
      (c < 2 ^ 24 → encode (.configure c) = 0x10000000#32 + BitVec.ofNat 32 c ∧
        payloadLen (encode (.configure c)) = 0)

/-- Rule R102: a failed RB.CONFIGURE changes no register and no memory; RB.CONFIGURE succeeds exactly for
`1 <= c <= MAX_STORAGE`, and then the usable payload capacity is `c - 1`. -/
def Obligations.ConfigureFailsOutOfRange : Prop :=
  (∀ (s : State) (c : Nat), s.rspReady = true → (c = 0 ∨ s.params.maxStorage < c) →
    exec (.configure c) s = .next { s with
      cmdWord := none
      rsp := s.rsp ++ [{ status := .invalidCapacity, value := 0#32, out := [], evTrunc := false }] }) ∧
  (∀ (s t : State) (c : Nat) (r : Response), exec (.configure c) s = .next t → t.rsp = s.rsp ++ [r] →
    (r.status = .ok ↔ 1 ≤ c ∧ c ≤ s.params.maxStorage) ∧ (r.status = .ok → t.free = c - 1))

/-- Rule R104: RB.RESET. The whole next state is given. -/
def Obligations.ResetClearsIndicesAndCounters : Prop :=
  ∀ s : State, s.rspReady = true →
    ∃ t, exec .reset s = .next t ∧
      t = { s with
        head := 0, tail := 0, totalPushed := 0, totalPopped := 0, cmdWord := none
        rsp := s.rsp ++ [{ status := .ok, value := 0#32, out := [], evTrunc := false }] } ∧
      t.empty = true ∧ (1 ≤ s.capacity → (t.full = true ↔ s.capacity = 1)) ∧
      encode .reset = 0x11000000#32 ∧ payloadLen (encode .reset) = 0

/-- Rule R108 with rule R107's response: RB.PUSH stores the longest prefix of its payload that fits, at the
slots from `head` on, and leaves every other slot and every other register alone; a following RB.POP of all that is
queued returns what was queued before and then that prefix. -/
def Obligations.PushStoresLongestFittingPrefix : Prop :=
  ∀ (s : State) (len : Nat), IndexInv s → s.rspReady = true → len ≤ s.din.length →
    ∃ t, exec (.push len) s = .next t ∧
      t = { s with
        storage := t.storage
        head := s.pushSlot (min len s.free)
        totalPushed := truncN s.params.cntW (s.totalPushed + min len s.free)
        din := s.din.drop len
        cmdWord := none
        rsp := s.rsp ++ [{
          status := if min len s.free = len then .ok else .partialTransfer
          value := BitVec.ofNat 32 (min len s.free)
          out := []
          evTrunc := decide (min len s.free ≠ len) }] } ∧
      (∀ k, k < min len s.free → s.din[k]? = some (t.slot (s.pushSlot k))) ∧
      (∀ a, (∀ k, k < min len s.free → a ≠ s.pushSlot k) → t.slot a = s.slot a) ∧
      t.occupancy = s.occupancy + min len s.free ∧
      (t.full = true ↔ s.free ≤ len) ∧
      (s.doutReady = true → ∃ u r, exec (.pop t.occupancy) t = .next u ∧ u.rsp = t.rsp ++ [r] ∧
        r.out = s.queue ++ s.din.take (min len s.free))

/-- Rule R112 with rule R111's response: RB.POP answers the oldest bytes, at most `max_len` of them, and
moves `tail` past them; `storage` and every other register are as before. -/
def Obligations.PopReturnsOldestBytes : Prop :=
  ∀ (s : State) (maxLen : Nat), IndexInv s → s.rspReady = true → s.doutReady = true →
    ∃ t out, exec (.pop maxLen) s = .next t ∧
      out = (List.range (min maxLen s.occupancy)).map (fun k => s.slot ((s.tail + k) % s.capacity)) ∧
      t = { s with
        tail := (s.tail + min maxLen s.occupancy) % s.capacity
        totalPopped := truncN s.params.cntW (s.totalPopped + min maxLen s.occupancy)
        cmdWord := none
        rsp := s.rsp ++ [{
          status := if min maxLen s.occupancy = maxLen then .ok else .partialTransfer
          value := BitVec.ofNat 32 (min maxLen s.occupancy)
          out := out
          evTrunc := false }] } ∧
      t.occupancy = s.occupancy - min maxLen s.occupancy ∧
      (t.empty = true ↔ s.occupancy ≤ maxLen)

/-- Rules R130, R133, R138: CRC.CHECKSUM answers the table-free checksum of its payload; it changes the CRC
state only, and the payload channel. -/
def Obligations.ChecksumEqualsBitSerialForm : Prop :=
  ∀ (s : State) (len : Nat), ReadyInv s → s.rspReady = true → len ≤ s.din.length →
    ∃ t, exec (.checksum len) s = .next t ∧
      t = { s with
        table := t.table
        ready := true
        din := s.din.drop len
        cmdWord := none
        rsp := s.rsp ++ [{
          status := .ok
          value := (crcSerial 0xFFFF#16 (s.din.take len)).setWidth 32
          out := []
          evTrunc := false }] } ∧
      (s.ready = true → t.table = s.table) ∧
      (∀ i, i < 256 → t.tblRead i = tableEntry i)

/-- Rules R150, R152: each register number 0 to 8, written as the word `0x30000000 + n`, answers the value of
its register, zero-extended, and writes nothing. -/
def Obligations.RdregAnswersRegisterMap : Prop :=
  ∀ (s : State) (n : Nat) (v : Word), s.rspReady = true →
    (n, v) ∈ [(0, BitVec.ofNat 32 s.capacity), (1, BitVec.ofNat 32 s.head), (2, BitVec.ofNat 32 s.tail),
      (3, (if s.head = s.tail then 1#32 else 0#32) + (if (s.head + 1) % s.capacity = s.tail then 2#32 else 0#32)),
      (4, BitVec.ofNat 32 s.occupancy), (5, BitVec.ofNat 32 s.totalPushed),
      (6, BitVec.ofNat 32 s.totalPopped), (7, if s.ready then 1#32 else 0#32),
      (8, BitVec.ofNat 32 s.params.maxStorage)] →
    ∃ i, decode (0x30000000#32 + BitVec.ofNat 32 n) = .ok i ∧
      exec i s = .next { s with
        cmdWord := none
        rsp := s.rsp ++ [{ status := .ok, value := v, out := [], evTrunc := false }] }

/-- Rule R150: SYS.RDREG of a register 0 to 7 completes in every state, answers the register and changes
nothing else. -/
def Obligations.RdregCompletes : Prop :=
  ∀ (s : State) (r : Reg), s.rspReady = true →
    exec (.rdreg r) s = .next { s with
      cmdWord := none
      rsp := s.rsp ++ [{ status := .ok, value := s.regValue r, out := [], evTrunc := false }] }

/-- Rules R150, R152: SYS.RDREG of register 8 completes in every state, answers `MAX_STORAGE` and changes
nothing else. -/
def Obligations.RdregMaxStorageCompletes : Prop :=
  ∀ s : State, s.rspReady = true →
    exec .rdregMaxStorage s = .next { s with
      cmdWord := none
      rsp := s.rsp ++ [{ status := .ok, value := BitVec.ofNat 32 s.params.maxStorage, out := [],
                         evTrunc := false }] }

/-- No register value is cut off by its 32 bits (rules R9, R152): in every reachable state the value SYS.RDREG
answers is the register itself. -/
def Obligations.RegisterValuesFit : Prop :=
  ∀ s : State, Inv s →
    (s.regValue .rbCapacity).toNat = s.capacity ∧ (s.regValue .rbHead).toNat = s.head ∧
    (s.regValue .rbTail).toNat = s.tail ∧ (s.regValue .rbCount).toNat = s.occupancy ∧
    (s.regValue .rbTotalPushed).toNat = s.totalPushed ∧
    (s.regValue .rbTotalPopped).toNat = s.totalPopped ∧
    (valueOf s.params.maxStorage).toNat = s.params.maxStorage

/-- Rules R153, R29: the fields of `RB_STATUS`; both flags are 1 only when `capacity` is 1. -/
def Obligations.RbStatusFields : Prop :=
  ∀ s : State, IndexInv s →
    ((s.regValue .rbStatus).getLsbD 0 = true ↔ s.head = s.tail) ∧
    ((s.regValue .rbStatus).getLsbD 1 = true ↔ (s.head + 1) % s.capacity = s.tail) ∧
    (∀ j, 2 ≤ j → (s.regValue .rbStatus).getLsbD j = false) ∧
    (s.regValue .rbStatus = 3#32 ↔ s.capacity = 1)

/-- Rule R200: while the payload of an RB.PUSH or CRC.CHECKSUM is not all there, or the host does not take
the output of a command or the answer to a reserved word, the block waits: nothing changes. That such a command
has no effect at all yet is the model's choice (log entry 4; for an RB.POP of which the host takes the bytes or the
response alone, log entry 11). -/
def Obligations.IncompleteFramesWait : Prop :=
  (∀ (s : State) (len : Nat), IndexInv s → s.din.length < len → exec (.push len) s = .next s) ∧
  (∀ (s : State) (len : Nat), s.din.length < len → exec (.checksum len) s = .next s) ∧
  (∀ (s : State) (i : Instr), IndexInv s → s.rspReady = false → exec i s = .next s) ∧
  (∀ (s : State) (w : Word), s.rst = false → s.cmdWord = some w → s.rspReady = false →
    (∃ e, decode w = .error e) → step s = .next s) ∧
  (∀ (s : State) (n : Nat), IndexInv s → s.doutReady = false → 0 < min n s.occupancy →
    exec (.pop n) s = .next s)

/-- The model's choice (log entry 8): outside the index invariant of rule R25, which no run leaves, RB.PUSH
and RB.POP stop, because the slot they address may not exist (rule R51). -/
def Obligations.TransfersStopOutsideIndexRange : Prop :=
  ∀ (s : State) (n : Nat), ¬ IndexInv s →
    exec (.push n) s = .fault .noSuchSlot ∧ exec (.pop n) s = .fault .noSuchSlot

/-! ## The ring buffer -/

/-- Rule R28: `occupancy` in its three forms, its range, `free`, the two predicates, and the queued bytes. -/
def Obligations.OccupancyMeasuresQueue : Prop :=
  ∀ s : State, IndexInv s →
    (s.occupancy : Int) = ((s.head : Int) - s.tail) % s.capacity ∧
    s.occupancy = (if s.tail ≤ s.head then s.head - s.tail else s.head + s.capacity - s.tail) ∧
    s.occupancy ≤ s.capacity - 1 ∧
    s.occupancy + s.free = s.capacity - 1 ∧
    (s.empty = true ↔ s.occupancy = 0) ∧
    (s.full = true ↔ s.occupancy = s.capacity - 1) ∧
    s.queue.length = s.occupancy ∧
    (∀ k, k < s.occupancy → s.queue[k]? = some (s.slot ((s.tail + k) % s.capacity)))

/-- Rule R29: with `capacity == 1` the buffer is empty and full at once; with more it is never both. -/
def Obligations.CapacityOneIsEmptyAndFull : Prop :=
  ∀ s : State, IndexInv s →
    (s.capacity = 1 → s.head = 0 ∧ s.tail = 0 ∧ s.empty = true ∧ s.full = true ∧ s.occupancy = 0 ∧
      s.capacity - 1 = 0) ∧
    (2 ≤ s.capacity → ¬ (s.empty = true ∧ s.full = true))

/-- The queue each ring-buffer command leaves (rules R28, R101, R104, R106, R110): the circular buffer with
its cursors refines a first-in first-out queue of at most `capacity - 1` bytes. -/
def Obligations.RingRefinesBoundedQueue : Prop :=
  ∀ (s t : State) (i : Instr) (r : Response), s.params.Valid → IndexInv s →
    exec i s = .next t → t.rsp = s.rsp ++ [r] →
    match i with
    | .configure c =>
      if 1 ≤ c ∧ c ≤ s.params.maxStorage then t.queue = [] ∧ t.capacity = c
      else t.queue = s.queue ∧ t.capacity = s.capacity
    | .reset => t.queue = [] ∧ t.capacity = s.capacity
    | .push len =>
      t.queue = s.queue ++ (s.din.take len).take (s.capacity - 1 - s.queue.length) ∧
        r.value.toNat = t.queue.length - s.queue.length ∧ t.capacity = s.capacity
    | .pop n =>
      t.queue = s.queue.drop n ∧ r.out = s.queue.take n ∧ t.capacity = s.capacity
    | .checksum _ => t.queue = s.queue ∧ t.capacity = s.capacity
    | .rdreg _ => t.queue = s.queue ∧ t.capacity = s.capacity
    | .rdregMaxStorage => t.queue = s.queue ∧ t.capacity = s.capacity

/-- Rule R114: over any run of commands presented to an idle block none of which resets the indices, the bytes
queued before and the bytes stored are, in order, the bytes returned and the bytes still queued; so from an empty
buffer, as an index reset leaves it, the returned bytes are a prefix of the stored ones. And a sequence that fits,
pushed into an empty buffer and popped at once, comes back whole. -/
def Obligations.FifoOrderAndRoundTrip : Prop :=
  (∀ (s : State) (fs : List Frame), IndexInv s → IdlePorts s →
    (∀ f ∈ fs, f.WellFormed ∧ KeepsIndices s.params.maxStorage f) →
    ∃ t rs, core.run fs.length (s.present fs) = .next t ∧
      t.rsp = s.rsp ++ rs ∧ rs.length = fs.length ∧
      s.queue ++ storedBytes fs rs = returnedBytes fs rs ++ t.queue ∧
      (s.queue = [] → returnedBytes fs rs <+: storedBytes fs rs)) ∧
  (∀ (s : State) (bs : List Byte), IndexInv s → IdlePorts s → s.empty = true →
    bs.length ≤ s.capacity - 1 → bs.length < 2 ^ 24 →
    ∃ t, core.run 2 (s.present [{ word := encode (.push bs.length), payload := bs },
        { word := encode (.pop bs.length), payload := [] }]) = .next t ∧
      t.rsp = s.rsp ++
        [{ status := .ok, value := BitVec.ofNat 32 bs.length, out := [], evTrunc := false },
         { status := .ok, value := BitVec.ofNat 32 bs.length, out := bs, evTrunc := false }])

/-- Rule R109 (g): pushing `a` then `b` leaves the same state as pushing `a ++ b`, and the two counts sum to
the one count. -/
def Obligations.PushInTwoPartsIsOnePush : Prop :=
  ∀ (s : State) (m n : Nat), IndexInv s → s.rspReady = true → m + n ≤ s.din.length →
    ∃ t₁ t₂ t r₁ r₂ r,
      exec (.push m) s = .next t₁ ∧ t₁.rsp = s.rsp ++ [r₁] ∧
      exec (.push n) t₁ = .next t₂ ∧ t₂.rsp = t₁.rsp ++ [r₂] ∧
      exec (.push (m + n)) s = .next t ∧ t.rsp = s.rsp ++ [r] ∧
      t₂ = { t with rsp := t₂.rsp } ∧
      r.value = r₁.value + r₂.value

/-- Rule R113 (e): popping `m` then `n` returns the same bytes and leaves the same state as popping
`m + n`. -/
def Obligations.PopInTwoPartsIsOnePop : Prop :=
  ∀ (s : State) (m n : Nat), IndexInv s → s.rspReady = true → s.doutReady = true →
    ∃ t₁ t₂ t r₁ r₂ r,
      exec (.pop m) s = .next t₁ ∧ t₁.rsp = s.rsp ++ [r₁] ∧
      exec (.pop n) t₁ = .next t₂ ∧ t₂.rsp = t₁.rsp ++ [r₂] ∧
      exec (.pop (m + n)) s = .next t ∧ t.rsp = s.rsp ++ [r] ∧
      t₂ = { t with rsp := t₂.rsp } ∧
      r.out = r₁.out ++ r₂.out

/-- Rules R109 (a), (b), R113 (a), (b): a zero-length transfer is a no-op that answers `OK`; a push into a
full buffer and a pop from an empty one move nothing and answer `PARTIAL`. Only the payload channel and the
response log move. -/
def Obligations.TransfersThatMoveNothing : Prop :=
  ∀ s : State, IndexInv s → CounterInv s → s.rspReady = true →
    exec (.push 0) s = .next (s.answered { status := .ok, value := 0#32, out := [], evTrunc := false }) ∧
    exec (.pop 0) s = .next (s.answered { status := .ok, value := 0#32, out := [], evTrunc := false }) ∧
    (∀ n, 0 < n → n ≤ s.din.length → s.full = true →
      exec (.push n) s = .next (State.answered { s with din := s.din.drop n }
        { status := .partialTransfer, value := 0#32, out := [], evTrunc := true })) ∧
    (∀ n, 0 < n → s.empty = true →
      exec (.pop n) s = .next (s.answered
        { status := .partialTransfer, value := 0#32, out := [], evTrunc := false }))

/-- Rules R102, R202: after a successful RB.CONFIGURE to `c`, an RB.PUSH of `n` bytes stores them all exactly
when `n <= c - 1`. -/
def Obligations.UsableCapacityIsOneLess : Prop :=
  ∀ (s : State) (c n : Nat), s.rspReady = true → 1 ≤ c → c ≤ s.params.maxStorage → n ≤ s.din.length →
    ∃ t u r, exec (.configure c) s = .next t ∧ exec (.push n) t = .next u ∧ u.rsp = t.rsp ++ [r] ∧
      (r.status = .ok ↔ n ≤ c - 1) ∧ (r.status = .ok → u.occupancy = n)

/-- Rule R36: the conservation law survives every command but a successful RB.CONFIGURE of a non-empty
buffer; it holds after RB.RESET and hardware reset; such an RB.CONFIGURE leaves the difference above `occupancy`
by the number of bytes it discards; and every command but RB.RESET and a successful RB.CONFIGURE keeps what the
difference has above `occupancy`. -/
def Obligations.ConservationLaw : Prop :=
  (∀ (s t : State) (i : Instr), s.params.Valid → IndexInv s → Conserved s → exec i s = .next t →
    (∀ c, i = .configure c → c = 0 ∨ s.params.maxStorage < c ∨ s.empty = true) →
    Conserved t) ∧
  (∀ s t : State, s.rspReady = true → exec .reset s = .next t → Conserved t) ∧
  (∀ s : State, Conserved (hardwareReset s)) ∧
  (∀ (s t : State) (c : Nat), IndexInv s → Conserved s → s.rspReady = true → 1 ≤ c → c ≤ s.params.maxStorage →
    exec (.configure c) s = .next t →
    t.occupancy = 0 ∧ t.counterDiff = t.occupancy + s.occupancy ∧ (Conserved t ↔ s.empty = true)) ∧
  (∀ (s t : State) (i : Instr), IndexInv s → exec i s = .next t → i ≠ .reset →
    (∀ c, i = .configure c → c = 0 ∨ s.params.maxStorage < c) →
    ((t.counterDiff : Int) - t.occupancy) % 2 ^ s.params.cntW =
      ((s.counterDiff : Int) - s.occupancy) % 2 ^ s.params.cntW)

/-! ## The CRC unit -/

/-- Rule R132: the five entries it gives, the eight powers of two, and the linearity of the table. -/
def Obligations.TableIsLinearOverXor : Prop :=
  (tableEntry 0 = 0x0000#16 ∧ tableEntry 1 = 0x1021#16 ∧ tableEntry 2 = 0x2042#16 ∧
    tableEntry 0x80 = 0x9188#16 ∧ tableEntry 0xFF = 0x1EF0#16) ∧
  (List.range 8).map (fun j => tableEntry (2 ^ j)) =
    [0x1021#16, 0x2042#16, 0x4084#16, 0x8108#16, 0x1231#16, 0x2462#16, 0x48C4#16, 0x9188#16] ∧
  (∀ a b : Byte, tableEntry (a ^^^ b).toNat = tableEntry a.toNat ^^^ tableEntry b.toNat)

/-- Rule R134: the first CRC.CHECKSUM that runs builds all 256 entries, whatever its length, and makes `ready`
1; a later one leaves the table alone; no other command writes `table` or `ready`, and none clears `ready`. -/
def Obligations.TableBuiltOnceByChecksum : Prop :=
  (∀ (s : State) (len : Nat), s.ready = false → s.rspReady = true → len ≤ s.din.length →
    ∃ t, exec (.checksum len) s = .next t ∧ t.ready = true ∧
      ∀ i, i < 256 → Memory.read t.table i = some (tableEntry i)) ∧
  (∀ (s t : State) (len : Nat), s.ready = true → exec (.checksum len) s = .next t →
    t.table = s.table ∧ t.ready = true) ∧
  (∀ (s t : State) (i : Instr), exec i s = .next t → (∀ len, i ≠ .checksum len) →
    t.table = s.table ∧ t.ready = s.ready)

/-- Rule R135: the answer of a CRC.CHECKSUM is a function of its payload: it is the same in any two states, of
any two builds, whatever their RB state, their earlier commands and `ready`; its status is `OK`; and it changes
no register but `ready`, and `table`. -/
def Obligations.ChecksumDependsOnPayloadOnly : Prop :=
  ∀ (s s' : State) (len : Nat), ReadyInv s → ReadyInv s' → s.rspReady = true → s'.rspReady = true →
    len ≤ s.din.length → len ≤ s'.din.length → s.din.take len = s'.din.take len →
    ∃ t t' r, exec (.checksum len) s = .next t ∧ exec (.checksum len) s' = .next t' ∧
      t.rsp = s.rsp ++ [r] ∧ t'.rsp = s'.rsp ++ [r] ∧ r.status = .ok ∧
      t = { s with
        table := t.table, ready := t.ready, din := s.din.drop len, cmdWord := none, rsp := s.rsp ++ [r] }

/-- Rule R137: the source's own check value, in every reachable state, with the sequence that rule R133's accumulator
takes in every state with a built table, before the first byte and after each; the table-free loop of rule R138
takes the same values. -/
def Obligations.PublishedCheckValue : Prop :=
  (∀ s : State, ReadyInv s → s.rspReady = true →
    s.din.take 9 = checkMessage →
    ∃ t, exec (.checksum 9) s = .next t ∧
      t.rsp = s.rsp ++ [{ status := .ok, value := 0x000029B1#32, out := [], evTrunc := false }]) ∧
  assembleLine "crc.checksum \"123456789\"" = some { word := 0x20000009#32, payload := checkMessage } ∧
  (∀ s : State, ReadyInv s → s.ready = true →
    (List.range 10).map (fun n => s.crcLoop 0xFFFF#16 (checkMessage.take n)) =
      [0xFFFF#16, 0xC782#16, 0x3DBA#16, 0x5BCE#16, 0x5349#16, 0x4560#16, 0x2EF4#16, 0x7718#16, 0xA12B#16,
       0x29B1#16]) ∧
  (List.range 10).map (fun n => crcSerial 0xFFFF#16 (checkMessage.take n)) =
    [0xFFFF#16, 0xC782#16, 0x3DBA#16, 0x5BCE#16, 0x5349#16, 0x4560#16, 0x2EF4#16, 0x7718#16, 0xA12B#16,
     0x29B1#16]

/-! ## Which unit owns which state -/

/-- Rules R3, R100, R130, R151: a command of the RB unit leaves the CRC state alone, CRC.CHECKSUM leaves the RB
state alone, and SYS.RDREG leaves both. No command writes the inputs `rst`, `dout_ready`, `rsp_ready`, the words
presented, or the parameters. -/
def Obligations.CommandsStayInTheirUnit : Prop :=
  ∀ (s t : State) (i : Instr), exec i s = .next t →
    (isRb i = true → t.table = s.table ∧ t.ready = s.ready) ∧
    (isRb i = false → t.storage = s.storage ∧ t.capacity = s.capacity ∧ t.head = s.head ∧ t.tail = s.tail ∧
      t.totalPushed = s.totalPushed ∧ t.totalPopped = s.totalPopped) ∧
    t.rst = s.rst ∧ t.doutReady = s.doutReady ∧ t.rspReady = s.rspReady ∧ t.cmdIn = s.cmdIn ∧
    t.params = s.params ∧ t.resets = s.resets

/-- The column 'written by' of rule R20's table, with rules R22 to R24: the only commands that change each
register of the RB unit. -/
def Obligations.WhoWritesEachRegister : Prop :=
  ∀ (s t : State) (i : Instr), exec i s = .next t →
    (t.storage ≠ s.storage → ∃ len, i = .push len) ∧
    (t.capacity ≠ s.capacity → ∃ c, i = .configure c) ∧
    (t.head ≠ s.head → (∃ c, i = .configure c) ∨ i = .reset ∨ ∃ len, i = .push len) ∧
    (t.tail ≠ s.tail → (∃ c, i = .configure c) ∨ i = .reset ∨ ∃ n, i = .pop n) ∧
    (t.totalPushed ≠ s.totalPushed → i = .reset ∨ ∃ len, i = .push len) ∧
    (t.totalPopped ≠ s.totalPopped → i = .reset ∨ ∃ n, i = .pop n) ∧
    (t.table ≠ s.table ∨ t.ready ≠ s.ready → ∃ len, i = .checksum len)

/-- Rule R21: no command changes a slot at or above `capacity`, and none but RB.PUSH changes any. -/
def Obligations.SlotsAboveCapacityKept : Prop :=
  ∀ (s t : State) (i : Instr), exec i s = .next t →
    (∀ a, s.capacity ≤ a → t.slot a = s.slot a) ∧
    ((∀ len, i ≠ .push len) → ∀ a, t.slot a = s.slot a)

/-- Rule R174: an RB command and a CRC.CHECKSUM commute: either order gives the same two responses and the
same final state, but for the order of the responses. Each command finds its own payload, `p` or `q`, on the
payload channel. -/
def Obligations.RbCommandAndChecksumCommute : Prop :=
  ∀ (s : State) (i : Instr) (p q : List Byte), isRb i = true → IndexInv s →
    s.rspReady = true → s.doutReady = true → p.length = payloadBytes i →
    ∃ a₁ a₂ b₁ b₂ r c,
      exec i { s with din := p } = .next a₁ ∧
      exec (.checksum q.length) { a₁ with din := q } = .next a₂ ∧
      exec (.checksum q.length) { s with din := q } = .next b₁ ∧
      exec i { b₁ with din := p } = .next b₂ ∧
      a₂.rsp = s.rsp ++ [r, c] ∧ b₂.rsp = s.rsp ++ [c, r] ∧ a₂ = { b₂ with rsp := a₂.rsp }

/-- Rule R151: a SYS.RDREG issued before a command changes neither the response of that command nor the state
it leaves, but for the response log. -/
def Obligations.RdregIsInvisibleToOthers : Prop :=
  ∀ (s a b c : State) (q i : Instr) (x : Response), (q = .rdregMaxStorage ∨ ∃ r, q = .rdreg r) →
    s.rspReady = true → exec q s = .next a → exec i a = .next b → exec i s = .next c →
    c.rsp = s.rsp ++ [x] →
    b.rsp = a.rsp ++ [x] ∧ c = { b with rsp := c.rsp }

/-! ## Responses -/

/-- Rules R86 (d), R164, R165: in a state of the index invariant every command completes when the host does
its duty, with exactly one response, of a status the outcome table allows; and no status but `PARTIAL` goes
with a change of state when it is not `OK`. -/
def Obligations.OneResponsePerCommand : Prop :=
  ∀ (s : State) (i : Instr), IndexInv s → HostServes i s →
    ∃ t r, exec i s = .next t ∧ t.rsp = s.rsp ++ [r] ∧ t.cmdWord = none ∧
      t.din = s.din.drop (payloadBytes i) ∧ r.status ∈ allowedStatuses i ∧
      (r.status = .invalidCapacity → t = s.answered r)

/-- Rules R77, R162, R167: `ev_trunc` is 1 exactly with the response of an RB.PUSH whose status is `PARTIAL`;
only RB.POP answers bytes, and as many as `value` says; a reserved word's response has `ev_trunc` 0. -/
def Obligations.TruncationEventOnlyForPush : Prop :=
  (∀ (s t : State) (i : Instr) (r : Response), exec i s = .next t → t.rsp = s.rsp ++ [r] →
    (r.evTrunc = true ↔ (∃ len, i = .push len) ∧ r.status = .partialTransfer) ∧
    ((∀ n, i ≠ .pop n) → r.out = []) ∧
    (∀ n, i = .pop n → r.value = BitVec.ofNat 32 r.out.length ∧ r.out.length ≤ n)) ∧
  (∀ (s : State) (r : Response), (illegalCommand s).rsp = s.rsp ++ [r] → r.evTrunc = false)

/-! ## Invariants -/

/-- The state after reset meets the invariant (rules R25, R32, R191), with the default parameters the model
resets to (log entry 1). -/
def Obligations.ResetMeetsInvariant : Prop := Inv State.reset

/-- Every step keeps the invariant: valid parameters, indices in range (R25), counters of `CNT_W` bits (R24),
memories in canonical form, a table that is built when `ready` says so (R32), and no queued slot that was never
written (R26). -/
def Obligations.StepKeepsInvariant : Prop :=
  ∀ s t : State, Inv s → step s = .next t → Inv t

/-- Rule R25: the index invariant alone, from any state that has it, through every command; RB.CONFIGURE that
succeeds, RB.RESET and hardware reset re-establish it. -/
def Obligations.IndexInvariantKept : Prop :=
  (∀ (s t : State) (i : Instr), IndexInv s → exec i s = .next t → IndexInv t) ∧
  (∀ (s t : State) (c : Nat), s.rspReady = true → 1 ≤ c → c ≤ s.params.maxStorage →
    exec (.configure c) s = .next t → IndexInv t) ∧
  (∀ s t : State, s.rspReady = true → 1 ≤ s.capacity → s.capacity ≤ s.params.maxStorage →
    exec .reset s = .next t → IndexInv t) ∧
  (∀ s : State, s.params.Valid → IndexInv (hardwareReset s))

/-- Rules R160, R166, R194: from a state of the index invariant, whatever the host presents, every step has a
next state: no command faults and none is refused. -/
def Obligations.NoStepStops : Prop :=
  ∀ s : State, IndexInv s → ∃ t, step s = .next t

/-- Rules R26, R33, R35: two blocks that agree on their registers, their ports, the bytes queued and, once it is
built, the table, take the same steps with the same responses and agree again, whatever else their memories
hold: no command observes a slot no RB.PUSH has written, a stale slot, or an unbuilt table. -/
def Obligations.StaleContentsNeverObserved : Prop :=
  ∀ s s' t : State, IndexInv s → SameVisible s s' → step s = .next t →
    ∃ t', step s' = .next t' ∧ SameVisible t t'

/-! ## The textual form -/

/-- Rules R83, R84: each line of the syntax table and of the pseudo-commands, with its frame. -/
def Obligations.AssemblerLines : Prop :=
  assembleLine "rb.configure 8" = some { word := 0x10000008#32, payload := [] } ∧
  assembleLine "rb.configure 0x400 ; all of it" = some { word := 0x10000400#32, payload := [] } ∧
  assembleLine "rb.reset" = some { word := 0x11000000#32, payload := [] } ∧
  assembleLine "rb.push 0xA0 17" = some { word := 0x12000002#32, payload := [0xA0#8, 0x11#8] } ∧
  assembleLine "rb.push" = some { word := 0x12000000#32, payload := [] } ∧
  assembleLine "rb.push \"AB\"" = some { word := 0x12000002#32, payload := [0x41#8, 0x42#8] } ∧
  assembleLine "rb.pop 3" = some { word := 0x13000003#32, payload := [] } ∧
  assembleLine "crc.checksum \"\"" = some { word := 0x20000000#32, payload := [] } ∧
  assembleLine "sys.rdreg RB_COUNT" = some { word := 0x30000004#32, payload := [] } ∧
  assembleLine "sys.rdreg 8" = some { word := 0x30000008#32, payload := [] } ∧
  assembleLine "rb.push1 0x55" = some { word := encode Instr.rbPush1, payload := [0x55#8] } ∧
  assembleLine "rb.pop1" = some { word := encode Instr.rbPop1, payload := [] } ∧
  assembleLine "rb.status" = some { word := encode Instr.rbStatus, payload := [] } ∧
  assembleLine "rb.count" = some { word := encode Instr.rbCount, payload := [] } ∧
  assembleLine "crc.ready" = some { word := encode Instr.crcReady, payload := [] }

/-- Rules R70, R74, R83: every line the assembler accepts is a frame of the block: its payload has the length
its word fixes. -/
def Obligations.AssembledFramesAreWellFormed : Prop :=
  ∀ (line : String) (f : Frame), assembleLine line = some f → f.WellFormed

/-! ## The outputs -/

/-- The output levels of rules R85, R86, R167, R191 by what is in progress, in five forms. (1) Idle, or with `rst` 1:
nothing is offered or asked. (2) An RB.PUSH or CRC.CHECKSUM that lacks payload: `din_ready` and nothing else. (3) An
RB.PUSH with its payload: its response is offered, and `ev_trunc` is 1 exactly when it is truncated and the host takes
the response (R167: during the response transfer, 0 at all other times). (4) An RB.POP with bytes to copy and
`dout_ready` 0: its oldest byte is offered and no response. (5) Every command with its payload and no output byte left
to take (RB.CONFIGURE, RB.RESET, RB.PUSH, CRC.CHECKSUM, SYS.RDREG, a reserved word, an RB.POP that copies nothing or
has `dout_ready` 1): a response is offered, and `ev_trunc` is 0 but for RB.PUSH. The model's choices: that a level is
the one after every transfer the inputs allow, so that `din_ready` is 0 when idle and an RB.POP with `dout_ready` 1
has `rsp_valid` 1 before its bytes are transferred, and that all these outputs are 0 with `rst` 1 before the reset
edge, of which R191 says nothing (log entry 15); that an RB.POP with `dout_ready` 0 offers its oldest byte whatever
was taken before (log entry 11). -/
def Obligations.OutputLevelsByProgress : Prop :=
  (∀ s : State, s.rst = true ∨ s.cmdWord = none →
    s.dinReady = false ∧ s.doutValid = false ∧ s.rspValid = false ∧ s.evTruncLevel = false) ∧
  (∀ (s : State) (n : Nat), IndexInv s → s.rst = false → n < 2 ^ 24 → s.din.length < n →
    s.cmdWord = some (encode (.push n)) ∨ s.cmdWord = some (encode (.checksum n)) →
    s.cmdReady = false ∧ s.dinReady = true ∧ s.doutValid = false ∧ s.rspValid = false ∧
      s.evTruncLevel = false) ∧
  (∀ (s : State) (n : Nat), IndexInv s → s.rst = false → n < 2 ^ 24 → n ≤ s.din.length →
    s.cmdWord = some (encode (.push n)) →
    s.cmdReady = false ∧ s.dinReady = false ∧ s.doutValid = false ∧
      s.rspOffered = some (pushResponse n (min n s.free)) ∧ (s.evTruncLevel = true ↔ s.free < n ∧ s.rspReady = true)) ∧
  (∀ (s : State) (n : Nat), IndexInv s → s.rst = false → n < 2 ^ 24 → 0 < min n s.occupancy →
    s.doutReady = false → s.cmdWord = some (encode (.pop n)) →
    s.cmdReady = false ∧ s.dinReady = false ∧ s.doutOffered = some (s.slot s.tail) ∧ s.rspValid = false ∧
      s.evTruncLevel = false) ∧
  (∀ (s : State) (w : Word), IndexInv s → s.rst = false → s.cmdWord = some w → payloadLen w ≤ s.din.length →
    (∀ n, decode w = .ok (.pop n) → s.doutReady = true ∨ min n s.occupancy = 0) →
    s.cmdReady = false ∧ s.dinReady = false ∧ s.doutValid = false ∧ s.rspValid = true ∧
      ((∀ n, decode w ≠ .ok (.push n)) → s.evTruncLevel = false))

/-- The handshake of rule R85 for command words and, with a command in progress, for responses. A step takes a
command word exactly when `cmd_ready` is 1 and a word is presented. The step of a command in progress transfers a
response exactly when that response is offered (`State.rspOffered`) and `rsp_ready` is 1. When a response is offered is
the model's choice (log entries 15 and 11): an RB.POP in progress with `dout_ready` 1 has `rsp_valid` 1 in the state
before the step that transfers its bytes. Nothing is said of an idle block, which may accept a word and answer it in
one step, from a state whose `rsp_valid` is 0. -/
def Obligations.TransfersFollowHandshake : Prop :=
  (∀ s t : State, step s = .next t → (t.cmdIn ≠ s.cmdIn ↔ s.cmdReady = true ∧ s.cmdIn ≠ [])) ∧
  (∀ (s : State) (w : Word) (r : Response), IndexInv s → s.rst = false → s.cmdWord = some w →
    ((∃ t, step s = .next t ∧ t.rsp = s.rsp ++ [r]) ↔ s.rspOffered = some r ∧ s.rspReady = true))
end

