-- ==== Sys2Proof/Laws/State.lean ====
section
/-! SUPPORT. One lemma per field and update of the state, each true by `rfl`, so that no later proof unfolds a
record update; and the small equations of the derived quantities. -/

namespace Sys2Proof.Machine

@[simp] theorem consumePayload_storage (len : Nat) (s : State) : (s.consumePayload len).storage = s.storage := rfl
@[simp] theorem consumePayload_capacity (len : Nat) (s : State) : (s.consumePayload len).capacity = s.capacity := rfl
@[simp] theorem consumePayload_head (len : Nat) (s : State) : (s.consumePayload len).head = s.head := rfl
@[simp] theorem consumePayload_tail (len : Nat) (s : State) : (s.consumePayload len).tail = s.tail := rfl
@[simp] theorem consumePayload_totalPushed (len : Nat) (s : State) : (s.consumePayload len).totalPushed = s.totalPushed := rfl
@[simp] theorem consumePayload_totalPopped (len : Nat) (s : State) : (s.consumePayload len).totalPopped = s.totalPopped := rfl
@[simp] theorem consumePayload_table (len : Nat) (s : State) : (s.consumePayload len).table = s.table := rfl
@[simp] theorem consumePayload_ready (len : Nat) (s : State) : (s.consumePayload len).ready = s.ready := rfl
@[simp] theorem consumePayload_rst (len : Nat) (s : State) : (s.consumePayload len).rst = s.rst := rfl
@[simp] theorem consumePayload_cmdIn (len : Nat) (s : State) : (s.consumePayload len).cmdIn = s.cmdIn := rfl
@[simp] theorem consumePayload_din (len : Nat) (s : State) : (s.consumePayload len).din = s.din.drop len := rfl
@[simp] theorem consumePayload_doutReady (len : Nat) (s : State) : (s.consumePayload len).doutReady = s.doutReady := rfl
@[simp] theorem consumePayload_rspReady (len : Nat) (s : State) : (s.consumePayload len).rspReady = s.rspReady := rfl
@[simp] theorem consumePayload_cmdWord (len : Nat) (s : State) : (s.consumePayload len).cmdWord = s.cmdWord := rfl
@[simp] theorem consumePayload_rsp (len : Nat) (s : State) : (s.consumePayload len).rsp = s.rsp := rfl
@[simp] theorem consumePayload_params (len : Nat) (s : State) : (s.consumePayload len).params = s.params := rfl
@[simp] theorem consumePayload_resets (len : Nat) (s : State) : (s.consumePayload len).resets = s.resets := rfl

@[simp] theorem tblWrite_storage (s : State) (i : Nat) (v : Half) : (s.tblWrite i v).storage = s.storage := rfl
@[simp] theorem tblWrite_capacity (s : State) (i : Nat) (v : Half) : (s.tblWrite i v).capacity = s.capacity := rfl
@[simp] theorem tblWrite_head (s : State) (i : Nat) (v : Half) : (s.tblWrite i v).head = s.head := rfl
@[simp] theorem tblWrite_tail (s : State) (i : Nat) (v : Half) : (s.tblWrite i v).tail = s.tail := rfl
@[simp] theorem tblWrite_totalPushed (s : State) (i : Nat) (v : Half) : (s.tblWrite i v).totalPushed = s.totalPushed := rfl
@[simp] theorem tblWrite_totalPopped (s : State) (i : Nat) (v : Half) : (s.tblWrite i v).totalPopped = s.totalPopped := rfl
@[simp] theorem tblWrite_table (s : State) (i : Nat) (v : Half) : (s.tblWrite i v).table = Memory.write s.table i v := rfl
@[simp] theorem tblWrite_ready (s : State) (i : Nat) (v : Half) : (s.tblWrite i v).ready = s.ready := rfl
@[simp] theorem tblWrite_rst (s : State) (i : Nat) (v : Half) : (s.tblWrite i v).rst = s.rst := rfl
@[simp] theorem tblWrite_cmdIn (s : State) (i : Nat) (v : Half) : (s.tblWrite i v).cmdIn = s.cmdIn := rfl
@[simp] theorem tblWrite_din (s : State) (i : Nat) (v : Half) : (s.tblWrite i v).din = s.din := rfl
@[simp] theorem tblWrite_doutReady (s : State) (i : Nat) (v : Half) : (s.tblWrite i v).doutReady = s.doutReady := rfl
@[simp] theorem tblWrite_rspReady (s : State) (i : Nat) (v : Half) : (s.tblWrite i v).rspReady = s.rspReady := rfl
@[simp] theorem tblWrite_cmdWord (s : State) (i : Nat) (v : Half) : (s.tblWrite i v).cmdWord = s.cmdWord := rfl
@[simp] theorem tblWrite_rsp (s : State) (i : Nat) (v : Half) : (s.tblWrite i v).rsp = s.rsp := rfl
@[simp] theorem tblWrite_params (s : State) (i : Nat) (v : Half) : (s.tblWrite i v).params = s.params := rfl
@[simp] theorem tblWrite_resets (s : State) (i : Nat) (v : Half) : (s.tblWrite i v).resets = s.resets := rfl

@[simp] theorem pushByte_storage (s : State) (b : Byte) : (s.pushByte b).storage = Memory.write s.storage s.head b := rfl
@[simp] theorem pushByte_capacity (s : State) (b : Byte) : (s.pushByte b).capacity = s.capacity := rfl
@[simp] theorem pushByte_head (s : State) (b : Byte) : (s.pushByte b).head = s.nextIndex s.head := rfl
@[simp] theorem pushByte_tail (s : State) (b : Byte) : (s.pushByte b).tail = s.tail := rfl
@[simp] theorem pushByte_totalPushed (s : State) (b : Byte) : (s.pushByte b).totalPushed = s.totalPushed := rfl
@[simp] theorem pushByte_totalPopped (s : State) (b : Byte) : (s.pushByte b).totalPopped = s.totalPopped := rfl
@[simp] theorem pushByte_table (s : State) (b : Byte) : (s.pushByte b).table = s.table := rfl
@[simp] theorem pushByte_ready (s : State) (b : Byte) : (s.pushByte b).ready = s.ready := rfl
@[simp] theorem pushByte_rst (s : State) (b : Byte) : (s.pushByte b).rst = s.rst := rfl
@[simp] theorem pushByte_cmdIn (s : State) (b : Byte) : (s.pushByte b).cmdIn = s.cmdIn := rfl
@[simp] theorem pushByte_din (s : State) (b : Byte) : (s.pushByte b).din = s.din := rfl
@[simp] theorem pushByte_doutReady (s : State) (b : Byte) : (s.pushByte b).doutReady = s.doutReady := rfl
@[simp] theorem pushByte_rspReady (s : State) (b : Byte) : (s.pushByte b).rspReady = s.rspReady := rfl
@[simp] theorem pushByte_cmdWord (s : State) (b : Byte) : (s.pushByte b).cmdWord = s.cmdWord := rfl
@[simp] theorem pushByte_rsp (s : State) (b : Byte) : (s.pushByte b).rsp = s.rsp := rfl
@[simp] theorem pushByte_params (s : State) (b : Byte) : (s.pushByte b).params = s.params := rfl
@[simp] theorem pushByte_resets (s : State) (b : Byte) : (s.pushByte b).resets = s.resets := rfl

@[simp] theorem advanceTail_storage (s : State) : (s.advanceTail).storage = s.storage := rfl
@[simp] theorem advanceTail_capacity (s : State) : (s.advanceTail).capacity = s.capacity := rfl
@[simp] theorem advanceTail_head (s : State) : (s.advanceTail).head = s.head := rfl
@[simp] theorem advanceTail_tail (s : State) : (s.advanceTail).tail = s.nextIndex s.tail := rfl
@[simp] theorem advanceTail_totalPushed (s : State) : (s.advanceTail).totalPushed = s.totalPushed := rfl
@[simp] theorem advanceTail_totalPopped (s : State) : (s.advanceTail).totalPopped = s.totalPopped := rfl
@[simp] theorem advanceTail_table (s : State) : (s.advanceTail).table = s.table := rfl
@[simp] theorem advanceTail_ready (s : State) : (s.advanceTail).ready = s.ready := rfl
@[simp] theorem advanceTail_rst (s : State) : (s.advanceTail).rst = s.rst := rfl
@[simp] theorem advanceTail_cmdIn (s : State) : (s.advanceTail).cmdIn = s.cmdIn := rfl
@[simp] theorem advanceTail_din (s : State) : (s.advanceTail).din = s.din := rfl
@[simp] theorem advanceTail_doutReady (s : State) : (s.advanceTail).doutReady = s.doutReady := rfl
@[simp] theorem advanceTail_rspReady (s : State) : (s.advanceTail).rspReady = s.rspReady := rfl
@[simp] theorem advanceTail_cmdWord (s : State) : (s.advanceTail).cmdWord = s.cmdWord := rfl
@[simp] theorem advanceTail_rsp (s : State) : (s.advanceTail).rsp = s.rsp := rfl
@[simp] theorem advanceTail_params (s : State) : (s.advanceTail).params = s.params := rfl
@[simp] theorem advanceTail_resets (s : State) : (s.advanceTail).resets = s.resets := rfl

@[simp] theorem answered_storage (s : State) (r : Response) : (s.answered r).storage = s.storage := rfl
@[simp] theorem answered_capacity (s : State) (r : Response) : (s.answered r).capacity = s.capacity := rfl
@[simp] theorem answered_head (s : State) (r : Response) : (s.answered r).head = s.head := rfl
@[simp] theorem answered_tail (s : State) (r : Response) : (s.answered r).tail = s.tail := rfl
@[simp] theorem answered_totalPushed (s : State) (r : Response) : (s.answered r).totalPushed = s.totalPushed := rfl
@[simp] theorem answered_totalPopped (s : State) (r : Response) : (s.answered r).totalPopped = s.totalPopped := rfl
@[simp] theorem answered_table (s : State) (r : Response) : (s.answered r).table = s.table := rfl
@[simp] theorem answered_ready (s : State) (r : Response) : (s.answered r).ready = s.ready := rfl
@[simp] theorem answered_rst (s : State) (r : Response) : (s.answered r).rst = s.rst := rfl
@[simp] theorem answered_cmdIn (s : State) (r : Response) : (s.answered r).cmdIn = s.cmdIn := rfl
@[simp] theorem answered_din (s : State) (r : Response) : (s.answered r).din = s.din := rfl
@[simp] theorem answered_doutReady (s : State) (r : Response) : (s.answered r).doutReady = s.doutReady := rfl
@[simp] theorem answered_rspReady (s : State) (r : Response) : (s.answered r).rspReady = s.rspReady := rfl
@[simp] theorem answered_cmdWord (s : State) (r : Response) : (s.answered r).cmdWord = none := rfl
@[simp] theorem answered_rsp (s : State) (r : Response) : (s.answered r).rsp = s.rsp ++ [r] := rfl
@[simp] theorem answered_params (s : State) (r : Response) : (s.answered r).params = s.params := rfl
@[simp] theorem answered_resets (s : State) (r : Response) : (s.answered r).resets = s.resets := rfl

@[simp] theorem configured_storage (s : State) (c : Nat) : (s.configured c).storage = s.storage := rfl
@[simp] theorem configured_capacity (s : State) (c : Nat) : (s.configured c).capacity = c := rfl
@[simp] theorem configured_head (s : State) (c : Nat) : (s.configured c).head = 0 := rfl
@[simp] theorem configured_tail (s : State) (c : Nat) : (s.configured c).tail = 0 := rfl
@[simp] theorem configured_totalPushed (s : State) (c : Nat) : (s.configured c).totalPushed = s.totalPushed := rfl
@[simp] theorem configured_totalPopped (s : State) (c : Nat) : (s.configured c).totalPopped = s.totalPopped := rfl
@[simp] theorem configured_table (s : State) (c : Nat) : (s.configured c).table = s.table := rfl
@[simp] theorem configured_ready (s : State) (c : Nat) : (s.configured c).ready = s.ready := rfl
@[simp] theorem configured_rst (s : State) (c : Nat) : (s.configured c).rst = s.rst := rfl
@[simp] theorem configured_cmdIn (s : State) (c : Nat) : (s.configured c).cmdIn = s.cmdIn := rfl
@[simp] theorem configured_din (s : State) (c : Nat) : (s.configured c).din = s.din := rfl
@[simp] theorem configured_doutReady (s : State) (c : Nat) : (s.configured c).doutReady = s.doutReady := rfl
@[simp] theorem configured_rspReady (s : State) (c : Nat) : (s.configured c).rspReady = s.rspReady := rfl
@[simp] theorem configured_cmdWord (s : State) (c : Nat) : (s.configured c).cmdWord = s.cmdWord := rfl
@[simp] theorem configured_rsp (s : State) (c : Nat) : (s.configured c).rsp = s.rsp := rfl
@[simp] theorem configured_params (s : State) (c : Nat) : (s.configured c).params = s.params := rfl
@[simp] theorem configured_resets (s : State) (c : Nat) : (s.configured c).resets = s.resets := rfl

@[simp] theorem bufferReset_storage (s : State) : (s.bufferReset).storage = s.storage := rfl
@[simp] theorem bufferReset_capacity (s : State) : (s.bufferReset).capacity = s.capacity := rfl
@[simp] theorem bufferReset_head (s : State) : (s.bufferReset).head = 0 := rfl
@[simp] theorem bufferReset_tail (s : State) : (s.bufferReset).tail = 0 := rfl
@[simp] theorem bufferReset_totalPushed (s : State) : (s.bufferReset).totalPushed = 0 := rfl
@[simp] theorem bufferReset_totalPopped (s : State) : (s.bufferReset).totalPopped = 0 := rfl
@[simp] theorem bufferReset_table (s : State) : (s.bufferReset).table = s.table := rfl
@[simp] theorem bufferReset_ready (s : State) : (s.bufferReset).ready = s.ready := rfl
@[simp] theorem bufferReset_rst (s : State) : (s.bufferReset).rst = s.rst := rfl
@[simp] theorem bufferReset_cmdIn (s : State) : (s.bufferReset).cmdIn = s.cmdIn := rfl
@[simp] theorem bufferReset_din (s : State) : (s.bufferReset).din = s.din := rfl
@[simp] theorem bufferReset_doutReady (s : State) : (s.bufferReset).doutReady = s.doutReady := rfl
@[simp] theorem bufferReset_rspReady (s : State) : (s.bufferReset).rspReady = s.rspReady := rfl
@[simp] theorem bufferReset_cmdWord (s : State) : (s.bufferReset).cmdWord = s.cmdWord := rfl
@[simp] theorem bufferReset_rsp (s : State) : (s.bufferReset).rsp = s.rsp := rfl
@[simp] theorem bufferReset_params (s : State) : (s.bufferReset).params = s.params := rfl
@[simp] theorem bufferReset_resets (s : State) : (s.bufferReset).resets = s.resets := rfl

@[simp] theorem countPushed_storage (s : State) (n : Nat) : (s.countPushed n).storage = s.storage := rfl
@[simp] theorem countPushed_capacity (s : State) (n : Nat) : (s.countPushed n).capacity = s.capacity := rfl
@[simp] theorem countPushed_head (s : State) (n : Nat) : (s.countPushed n).head = s.head := rfl
@[simp] theorem countPushed_tail (s : State) (n : Nat) : (s.countPushed n).tail = s.tail := rfl
@[simp] theorem countPushed_totalPushed (s : State) (n : Nat) : (s.countPushed n).totalPushed = truncN s.params.cntW (s.totalPushed + n) := rfl
@[simp] theorem countPushed_totalPopped (s : State) (n : Nat) : (s.countPushed n).totalPopped = s.totalPopped := rfl
@[simp] theorem countPushed_table (s : State) (n : Nat) : (s.countPushed n).table = s.table := rfl
@[simp] theorem countPushed_ready (s : State) (n : Nat) : (s.countPushed n).ready = s.ready := rfl
@[simp] theorem countPushed_rst (s : State) (n : Nat) : (s.countPushed n).rst = s.rst := rfl
@[simp] theorem countPushed_cmdIn (s : State) (n : Nat) : (s.countPushed n).cmdIn = s.cmdIn := rfl
@[simp] theorem countPushed_din (s : State) (n : Nat) : (s.countPushed n).din = s.din := rfl
@[simp] theorem countPushed_doutReady (s : State) (n : Nat) : (s.countPushed n).doutReady = s.doutReady := rfl
@[simp] theorem countPushed_rspReady (s : State) (n : Nat) : (s.countPushed n).rspReady = s.rspReady := rfl
@[simp] theorem countPushed_cmdWord (s : State) (n : Nat) : (s.countPushed n).cmdWord = s.cmdWord := rfl
@[simp] theorem countPushed_rsp (s : State) (n : Nat) : (s.countPushed n).rsp = s.rsp := rfl
@[simp] theorem countPushed_params (s : State) (n : Nat) : (s.countPushed n).params = s.params := rfl
@[simp] theorem countPushed_resets (s : State) (n : Nat) : (s.countPushed n).resets = s.resets := rfl

@[simp] theorem countPopped_storage (s : State) (n : Nat) : (s.countPopped n).storage = s.storage := rfl
@[simp] theorem countPopped_capacity (s : State) (n : Nat) : (s.countPopped n).capacity = s.capacity := rfl
@[simp] theorem countPopped_head (s : State) (n : Nat) : (s.countPopped n).head = s.head := rfl
@[simp] theorem countPopped_tail (s : State) (n : Nat) : (s.countPopped n).tail = s.tail := rfl
@[simp] theorem countPopped_totalPushed (s : State) (n : Nat) : (s.countPopped n).totalPushed = s.totalPushed := rfl
@[simp] theorem countPopped_totalPopped (s : State) (n : Nat) : (s.countPopped n).totalPopped = truncN s.params.cntW (s.totalPopped + n) := rfl
@[simp] theorem countPopped_table (s : State) (n : Nat) : (s.countPopped n).table = s.table := rfl
@[simp] theorem countPopped_ready (s : State) (n : Nat) : (s.countPopped n).ready = s.ready := rfl
@[simp] theorem countPopped_rst (s : State) (n : Nat) : (s.countPopped n).rst = s.rst := rfl
@[simp] theorem countPopped_cmdIn (s : State) (n : Nat) : (s.countPopped n).cmdIn = s.cmdIn := rfl
@[simp] theorem countPopped_din (s : State) (n : Nat) : (s.countPopped n).din = s.din := rfl
@[simp] theorem countPopped_doutReady (s : State) (n : Nat) : (s.countPopped n).doutReady = s.doutReady := rfl
@[simp] theorem countPopped_rspReady (s : State) (n : Nat) : (s.countPopped n).rspReady = s.rspReady := rfl
@[simp] theorem countPopped_cmdWord (s : State) (n : Nat) : (s.countPopped n).cmdWord = s.cmdWord := rfl
@[simp] theorem countPopped_rsp (s : State) (n : Nat) : (s.countPopped n).rsp = s.rsp := rfl
@[simp] theorem countPopped_params (s : State) (n : Nat) : (s.countPopped n).params = s.params := rfl
@[simp] theorem countPopped_resets (s : State) (n : Nat) : (s.countPopped n).resets = s.resets := rfl

@[simp] theorem hardwareReset_storage (s : State) : (hardwareReset s).storage = [] := rfl
@[simp] theorem hardwareReset_capacity (s : State) : (hardwareReset s).capacity = s.params.resetCapacity := rfl
@[simp] theorem hardwareReset_head (s : State) : (hardwareReset s).head = 0 := rfl
@[simp] theorem hardwareReset_tail (s : State) : (hardwareReset s).tail = 0 := rfl
@[simp] theorem hardwareReset_totalPushed (s : State) : (hardwareReset s).totalPushed = 0 := rfl
@[simp] theorem hardwareReset_totalPopped (s : State) : (hardwareReset s).totalPopped = 0 := rfl
@[simp] theorem hardwareReset_table (s : State) : (hardwareReset s).table = [] := rfl
@[simp] theorem hardwareReset_ready (s : State) : (hardwareReset s).ready = false := rfl
@[simp] theorem hardwareReset_rst (s : State) : (hardwareReset s).rst = s.rst := rfl
@[simp] theorem hardwareReset_cmdIn (s : State) : (hardwareReset s).cmdIn = s.cmdIn := rfl
@[simp] theorem hardwareReset_din (s : State) : (hardwareReset s).din = s.dinAfterReset := rfl
@[simp] theorem hardwareReset_doutReady (s : State) : (hardwareReset s).doutReady = s.doutReady := rfl
@[simp] theorem hardwareReset_rspReady (s : State) : (hardwareReset s).rspReady = s.rspReady := rfl
@[simp] theorem hardwareReset_cmdWord (s : State) : (hardwareReset s).cmdWord = none := rfl
@[simp] theorem hardwareReset_rsp (s : State) : (hardwareReset s).rsp = s.rsp := rfl
@[simp] theorem hardwareReset_params (s : State) : (hardwareReset s).params = s.params := rfl
@[simp] theorem hardwareReset_resets (s : State) : (hardwareReset s).resets = s.resets + 1 := rfl

end Sys2Proof.Machine
end

