-- ==== Sys2Proof/Laws/Memory.lean ====
section
/-! SUPPORT. The two memories: what is read after a write, and that a write keeps the canonical form. -/

namespace Sys2Proof.Machine

variable {α : Type}

/-- A read after a write: the value written at that address, the old contents at every other. -/
theorem Memory.read_write (m : List (Nat × α)) (a b : Nat) (v : α) :
    Memory.read (Memory.write m a v) b = if a = b then some v else Memory.read m b := by
  induction m with
  | nil => simp [Memory.write, Memory.read]
  | cons c m ih =>
    obtain ⟨k, w⟩ := c
    simp only [Memory.write]
    split
    · simp [Memory.read]
    · split
      · rename_i h; subst h
        simp only [Memory.read]
        split <;> rfl
      · simp only [Memory.read, ih]
        split
        · rename_i h₁ h₂ h₃; subst h₃; simp [h₂]
        · rfl

theorem Memory.read_write_same (m : List (Nat × α)) (a : Nat) (v : α) :
    Memory.read (Memory.write m a v) a = some v := by simp [Memory.read_write]

theorem Memory.read_write_other (m : List (Nat × α)) {a b : Nat} (v : α) (h : a ≠ b) :
    Memory.read (Memory.write m a v) b = Memory.read m b := by simp [Memory.read_write, h]

theorem Memory.mem_write {m : List (Nat × α)} {a : Nat} {v : α} {c : Nat × α}
    (h : c ∈ Memory.write m a v) : c = (a, v) ∨ c ∈ m := by
  induction m with
  | nil => simpa [Memory.write] using h
  | cons d m ih =>
    obtain ⟨k, w⟩ := d
    simp only [Memory.write] at h
    split at h
    · simpa using h
    · split at h
      · simp only [List.mem_cons] at h ⊢; tauto
      · simp only [List.mem_cons] at h ⊢
        rcases h with h | h
        · tauto
        · have := ih h; tauto

theorem Memory.wf_iff (n : Nat) (m : List (Nat × α)) :
    Memory.wf n m = true ↔ m.Pairwise (fun c d => c.1 < d.1) ∧ ∀ c ∈ m, c.1 < n := by
  simp [Memory.wf]

/-- A write to a location keeps the canonical form. -/
theorem Memory.wf_write {n : Nat} {m : List (Nat × α)} {a : Nat} (v : α) (ha : a < n)
    (h : Memory.wf n m = true) : Memory.wf n (Memory.write m a v) = true := by
  rw [Memory.wf_iff] at h ⊢
  obtain ⟨hp, hb⟩ := h
  constructor
  · clear hb
    induction m with
    | nil => simp [Memory.write]
    | cons c m ih =>
      obtain ⟨k, w⟩ := c
      obtain ⟨hk, hm⟩ := List.pairwise_cons.1 hp
      simp only [Memory.write]
      split
      · rename_i hlt
        refine List.pairwise_cons.2 ⟨?_, hp⟩
        intro d hd
        rcases List.mem_cons.1 hd with rfl | hd
        · exact hlt
        · exact lt_trans hlt (hk d hd)
      · split
        · rename_i h; subst h
          exact List.pairwise_cons.2 ⟨hk, hm⟩
        · rename_i h₁ h₂
          refine List.pairwise_cons.2 ⟨?_, ih hm⟩
          intro d hd
          rcases Memory.mem_write hd with rfl | hd
          · show k < a
            omega
          · exact hk d hd
  · intro c hc
    rcases Memory.mem_write hc with rfl | hc
    · exact ha
    · exact hb c hc

@[simp] theorem Memory.wf_nil (n : Nat) : Memory.wf n ([] : List (Nat × α)) = true := rfl

/-! What a slot of `storage` and an entry of `table` read, by update. -/

theorem slot_pushByte (s : State) (b : Byte) (i : Nat) :
    (s.pushByte b).slot i = if s.head = i then b else s.slot i := by
  simp only [State.slot, pushByte_storage, pushByte_resets, Memory.read_write]
  split <;> rfl

theorem tblRead_tblWrite (s : State) (i : Nat) (v : Half) (j : Nat) :
    (s.tblWrite i v).tblRead j = if i = j then v else s.tblRead j := by
  simp only [State.tblRead, tblWrite_table, tblWrite_resets, Memory.read_write]
  split <;> rfl

/-- A slot reads the same in two states whose `storage` and reset count agree. -/
theorem slot_congr {s t : State} (h : t.storage = s.storage) (hr : t.resets = s.resets) (i : Nat) :
    t.slot i = s.slot i := by simp only [State.slot, h, hr]

/-- An entry reads the same in two states whose `table` and reset count agree. -/
theorem tblRead_congr {s t : State} (h : t.table = s.table) (hr : t.resets = s.resets) (i : Nat) :
    t.tblRead i = s.tblRead i := by simp only [State.tblRead, h, hr]

end Sys2Proof.Machine
end

