-- ==== Sys2Proof/Laws/Operations.lean ====
section
/-! SUPPORT. What the shared operations over the ports and the table build can do, said once each. -/

namespace Sys2Proof.Machine

@[simp] theorem takes_plainResponse (s : State) (x : Status) (v : Word) :
    s.takes (plainResponse x v) = s.rspReady := by simp [State.takes, plainResponse]

/-- Where the host takes the response, `respond` ends the command with it. -/
theorem respond_of_takes {s t : State} {r : Response} (h : s.takes r = true) :
    respond s t r = t.answered r := by simp [respond, h]

/-- Where it does not, `respond` leaves the state the command began in. -/
theorem respond_of_not_takes {s t : State} {r : Response} (h : s.takes r = false) :
    respond s t r = s := by simp [respond, h]

/-- Everything `respond` can do: the command is answered, or nothing happens. -/
theorem respond_cases (s t : State) (r : Response) :
    (s.takes r = true ∧ respond s t r = t.answered r) ∨ (s.takes r = false ∧ respond s t r = s) := by
  cases h : s.takes r
  · exact .inr ⟨rfl, respond_of_not_takes h⟩
  · exact .inl ⟨rfl, respond_of_takes h⟩

/-- A command whose response log ends one longer was answered. -/
theorem respond_of_rsp {s t : State} {r x : Response} (ht : t.rsp = s.rsp)
    (h : (respond s t r).rsp = s.rsp ++ [x]) : s.takes r = true ∧ respond s t r = t.answered r ∧ x = r := by
  rcases respond_cases s t r with ⟨h₁, h₂⟩ | ⟨h₁, h₂⟩
  · refine ⟨h₁, h₂, ?_⟩
    rw [h₂, answered_rsp, ht] at h
    simpa using (List.append_cancel_left h).symm
  · rw [h₂] at h
    simp at h

/-- Everything `acceptCommand` can do: go on with the command in progress, accept the next word presented, or
find neither. -/
theorem acceptCommand_cases (s : State) :
    (∃ w, s.cmdWord = some w ∧ s.acceptCommand = some (w, s)) ∨
    (∃ w rest, s.cmdWord = none ∧ s.cmdIn = w :: rest ∧
      s.acceptCommand = some (w, { s with cmdIn := rest, cmdWord := some w })) ∨
    (s.cmdWord = none ∧ s.cmdIn = [] ∧ s.acceptCommand = none) := by
  unfold State.acceptCommand
  cases h : s.cmdWord with
  | some w => exact .inl ⟨w, rfl, rfl⟩
  | none =>
    cases h' : s.cmdIn with
    | nil => exact .inr (.inr ⟨rfl, rfl, rfl⟩)
    | cons w rest => exact .inr (.inl ⟨w, rest, rfl, rfl, rfl⟩)

/-- The writes of the table build: entry `i` below `n` is `tableEntry i`, every other as before. -/
theorem read_buildEntries (s : State) (n i : Nat) :
    Memory.read (s.buildEntries n).table i = if i < n then some (tableEntry i) else Memory.read s.table i := by
  induction n with
  | zero => simp [State.buildEntries]
  | succ n ih =>
    rw [State.buildEntries, tblWrite_table, Memory.read_write, ih]
    by_cases h : n = i
    · subst h; simp
    · have : i < n + 1 ↔ i < n := by omega
      simp [h, this]

/-- The writes of the table build change `table` and nothing else. -/
theorem buildEntries_eq (s : State) (n : Nat) :
    s.buildEntries n = { s with table := (s.buildEntries n).table } := by
  induction n with
  | zero => rfl
  | succ n ih =>
    rw [State.buildEntries]
    generalize s.buildEntries n = t at *
    rw [ih]; rfl

theorem wf_buildEntries (s : State) (n : Nat) (hn : n ≤ Config.tableN)
    (h : Memory.wf Config.tableN s.table = true) : Memory.wf Config.tableN (s.buildEntries n).table = true := by
  induction n with
  | zero => exact h
  | succ n ih => exact Memory.wf_write _ (by omega) (ih (by omega))

/-- Everything `buildTable` can do: the writes to `table`, and `ready`. -/
theorem buildTable_eq (s : State) :
    s.buildTable = { s with table := (s.buildEntries Config.tableN).table, ready := true } := by
  unfold State.buildTable
  generalize Config.tableN = n
  have h := buildEntries_eq s n
  generalize s.buildEntries n = t at *
  rw [h]

/-- Everything `ensureTable` can do: with `ready` 1 nothing; otherwise it changes `table` and sets `ready`. -/
theorem ensureTable_eq (s : State) :
    s.ensureTable = { s with table := s.ensureTable.table, ready := true } := by
  unfold State.ensureTable
  split
  · rename_i h; rw [← h]
  · rw [buildTable_eq]

theorem ensureTable_of_ready {s : State} (h : s.ready = true) : s.ensureTable = s := by
  simp [State.ensureTable, h]

/-- After `ensureTable` every entry is the one of rule R131. -/
theorem read_ensureTable {s : State} (h : ReadyInv s) {i : Nat} (hi : i < Config.tableN) :
    Memory.read s.ensureTable.table i = some (tableEntry i) := by
  unfold State.ensureTable
  split
  · rename_i hr; exact h hr i hi
  · rw [buildTable_eq]
    dsimp only
    rw [read_buildEntries, if_pos hi]

theorem wf_ensureTable {s : State} (h : Memory.wf Config.tableN s.table = true) :
    Memory.wf Config.tableN s.ensureTable.table = true := by
  unfold State.ensureTable
  split
  · exact h
  · have hw : ∀ n, n = Config.tableN → Memory.wf Config.tableN (s.buildEntries n).table = true :=
      fun n hn => wf_buildEntries s n hn.le h
    rw [buildTable_eq]
    dsimp only
    rw [hw _ rfl]

/-- The table after `ensureTable` depends on `table` and `ready` alone. -/
theorem ensureTable_table_congr {s t : State} (h : s.table = t.table) (hr : s.ready = t.ready) :
    s.ensureTable.table = t.ensureTable.table := by
  have hb : ∀ n, (s.buildEntries n).table = (t.buildEntries n).table := by
    intro n
    induction n with
    | zero => exact h
    | succ n ih => simp only [State.buildEntries, tblWrite_table, ih]
  unfold State.ensureTable
  rw [hr]
  split
  · exact h
  · rw [buildTable_eq, buildTable_eq]
    dsimp only
    rw [hb]

theorem ensureTable_resets (s : State) : s.ensureTable.resets = s.resets := by rw [ensureTable_eq]

/-- The accumulation reads the table and nothing else. -/
theorem crcLoop_congr {s t : State} (h : ∀ i, s.tblRead i = t.tblRead i) (c : Half) (bs : List Byte) :
    s.crcLoop c bs = t.crcLoop c bs := by
  induction bs generalizing c with
  | nil => rfl
  | cons b bs ih => rw [State.crcLoop, State.crcLoop, ih, State.crcStep, State.crcStep, h]

/-- With `ready` 0 nothing is claimed of the table. -/
theorem readyInv_of_not_ready {s : State} (h : s.ready = false) : ReadyInv s := fun h' => by simp [h] at h'

end Sys2Proof.Machine
end

