-- ==== Sys2Proof/Laws/RingBuffer.lean ====
section
/-! SUPPORT. The ring buffer: index arithmetic, what one byte step does to the occupancy, and everything the
loops of RB.PUSH and RB.POP can do, said once each. -/

namespace Sys2Proof.Machine

/-- The check RB.PUSH and RB.POP make is the index invariant of rule R25. -/
theorem indicesInRange_iff (s : State) : s.indicesInRange = true ↔ IndexInv s := by
  simp only [State.indicesInRange, decide_eq_true_eq]
  exact ⟨fun ⟨a, b, c, d⟩ => ⟨a, b, c, d⟩, fun ⟨a, b, c, d⟩ => ⟨a, b, c, d⟩⟩

/-- Rule R115 (a): the next index is the unwrapped one, or 0 at the end. -/
theorem nextIndex_eq {s : State} {i : Nat} (h : i < s.capacity) :
    s.nextIndex i = if i + 1 < s.capacity then i + 1 else 0 := by
  unfold State.nextIndex
  split
  · exact Nat.mod_eq_of_lt (by omega)
  · have : i + 1 = s.capacity := by omega
    rw [this, Nat.mod_self]

/-- Two indices below the capacity added modulo it. -/
theorem add_mod_eq {c i k : Nat} (hi : i < c) (hk : k ≤ c) :
    (i + k) % c = if i + k < c then i + k else i + k - c := by
  split
  · exact Nat.mod_eq_of_lt (by omega)
  · rw [Nat.mod_eq_sub_mod (by omega), Nat.mod_eq_of_lt (by omega)]

theorem empty_iff (s : State) : s.empty = true ↔ s.head = s.tail := by simp [State.empty]

theorem full_iff (s : State) : s.full = true ↔ s.nextIndex s.head = s.tail := by simp [State.full]

theorem occupancy_lt {s : State} (h : IndexInv s) : s.occupancy < s.capacity := by
  obtain ⟨_, _, _, _⟩ := h
  unfold State.occupancy; split <;> omega

theorem free_add_occupancy {s : State} (h : IndexInv s) : s.free + s.occupancy = s.capacity - 1 := by
  have := occupancy_lt h
  unfold State.free; omega

/-- Rule R28: `empty` is `occupancy == 0`. -/
theorem empty_iff_occupancy {s : State} (h : IndexInv s) : s.empty = true ↔ s.occupancy = 0 := by
  obtain ⟨_, _, _, _⟩ := h
  rw [empty_iff]; unfold State.occupancy; split <;> omega

/-- Rule R28: `full` is `free == 0`. -/
theorem full_iff_free {s : State} (h : IndexInv s) : s.full = true ↔ s.free = 0 := by
  obtain ⟨_, _, hh, _⟩ := h
  rw [full_iff, nextIndex_eq hh]; unfold State.free State.occupancy; split <;> split <;> omega

/-- Rule R28: `full` is `occupancy == capacity - 1`. -/
theorem full_iff_occupancy {s : State} (h : IndexInv s) :
    s.full = true ↔ s.occupancy = s.capacity - 1 := by
  have := occupancy_lt h
  rw [full_iff_free h]; unfold State.free; omega

/-! One byte step. -/

theorem indexInv_pushByte {s : State} (h : IndexInv s) (b : Byte) : IndexInv (s.pushByte b) := by
  obtain ⟨h₁, h₂, h₃, h₄⟩ := h
  exact ⟨h₁, h₂, Nat.mod_lt _ h₁, h₄⟩

theorem indexInv_advanceTail {s : State} (h : IndexInv s) : IndexInv s.advanceTail := by
  obtain ⟨h₁, h₂, h₃, h₄⟩ := h
  exact ⟨h₁, h₂, h₃, Nat.mod_lt _ h₁⟩

theorem free_pushByte {s : State} (h : IndexInv s) (hf : s.full = false) (b : Byte) :
    (s.pushByte b).free + 1 = s.free := by
  have hz : s.free ≠ 0 := fun hz => by simp [(full_iff_free h).2 hz] at hf
  have hn := nextIndex_eq h.head_lt
  obtain ⟨_, _, _, _⟩ := h
  have e : (s.pushByte b).free = s.capacity - 1 -
      (if s.tail ≤ s.nextIndex s.head then s.nextIndex s.head - s.tail
       else s.nextIndex s.head + s.capacity - s.tail) := rfl
  rw [e, hn]
  unfold State.free State.occupancy at hz ⊢
  split at hz <;> split <;> split <;> omega

theorem occupancy_advanceTail {s : State} (h : IndexInv s) (he : s.empty = false) :
    s.advanceTail.occupancy + 1 = s.occupancy := by
  have hz : s.head ≠ s.tail := fun hz => by simp [(empty_iff s).2 hz] at he
  have hn := nextIndex_eq h.tail_lt
  obtain ⟨_, _, _, _⟩ := h
  have e : s.advanceTail.occupancy =
      (if s.nextIndex s.tail ≤ s.head then s.head - s.nextIndex s.tail
       else s.head + s.capacity - s.nextIndex s.tail) := rfl
  rw [e, hn]
  unfold State.occupancy
  split <;> split <;> split <;> omega

/-- The slot `k` places from the cursor after a byte step is the slot `k + 1` places from it before. -/
theorem pushSlot_pushByte (s : State) (b : Byte) (k : Nat) :
    (s.pushByte b).pushSlot k = s.pushSlot (k + 1) := by
  simp only [State.pushSlot, pushByte_head, pushByte_capacity, State.nextIndex, Nat.mod_add_mod]
  congr 1; omega

theorem queueSlot_advanceTail (s : State) (k : Nat) :
    s.advanceTail.queueSlot k = s.queueSlot (k + 1) := by
  simp only [State.queueSlot, advanceTail_tail, advanceTail_capacity, State.nextIndex, Nat.mod_add_mod]
  congr 1; omega

theorem pushSlot_zero {s : State} (h : IndexInv s) : s.pushSlot 0 = s.head :=
  Nat.mod_eq_of_lt h.head_lt

theorem queueSlot_zero {s : State} (h : IndexInv s) : s.queueSlot 0 = s.tail :=
  Nat.mod_eq_of_lt h.tail_lt

theorem pushSlot_lt {s : State} (h : IndexInv s) (k : Nat) : s.pushSlot k < s.capacity :=
  Nat.mod_lt _ h.capacity_pos

theorem queueSlot_lt {s : State} (h : IndexInv s) (k : Nat) : s.queueSlot k < s.capacity :=
  Nat.mod_lt _ h.capacity_pos

/-- Distinct places within one turn of the ring are distinct slots. -/
theorem add_mod_inj {c i j k : Nat} (hi : i < c) (hj : j < c) (hk : k < c) (h : (i + j) % c = (i + k) % c) :
    j = k := by
  rw [add_mod_eq hi hj.le, add_mod_eq hi hk.le] at h
  split at h <;> split at h <;> omega

/-- Everything the loop of RB.PUSH can do (rule R108): it stores the longest prefix that fits at the slots
from `head` on, moves `head`, and changes no other slot and no other field. -/
theorem pushLoop_spec (bs : List Byte) (s : State) (n : Nat) (h : IndexInv s) :
    (pushLoop bs s n).2 = n + min bs.length s.free ∧
    (pushLoop bs s n).1 = { s with
      storage := (pushLoop bs s n).1.storage, head := s.pushSlot (min bs.length s.free) } ∧
    (∀ k, k < min bs.length s.free → bs[k]? = some ((pushLoop bs s n).1.slot (s.pushSlot k))) ∧
    (∀ a, (∀ k, k < min bs.length s.free → a ≠ s.pushSlot k) → (pushLoop bs s n).1.slot a = s.slot a) := by
  induction bs generalizing s n with
  | nil => simp [pushLoop, pushSlot_zero h]
  | cons b bs ih =>
    rw [pushLoop]
    by_cases hf : s.full = true
    · have hz := (full_iff_free h).1 hf
      simp [hf, hz, pushSlot_zero h]
    · have hf' : s.full = false := by simpa using hf
      have hfree := free_pushByte h hf' b
      obtain ⟨h₁, h₂, h₃, h₄⟩ := ih (s.pushByte b) (n + 1) (indexInv_pushByte h b)
      have hm : min (b :: bs).length s.free = min bs.length (s.pushByte b).free + 1 := by
        simp only [List.length_cons]; omega
      have hcap : s.free < s.capacity := by have := h.capacity_pos; unfold State.free; omega
      simp only [hf', Bool.false_eq_true, if_false, hm]
      generalize hc : min bs.length (s.pushByte b).free = c at *
      refine ⟨by omega, ?_, ?_, ?_⟩
      · rw [pushSlot_pushByte] at h₂
        generalize hr : (pushLoop bs (s.pushByte b) (n + 1)).1 = t at *
        rw [h₂]; rfl
      · rintro (_ | k) hk
        · rw [h₄ _ (fun k hk e => ?_), slot_pushByte, pushSlot_zero h]
          · simp
          · rw [pushSlot_pushByte] at e
            have := add_mod_inj h.head_lt h.capacity_pos (by omega) e
            omega
        · simpa [pushSlot_pushByte] using h₃ k (by omega)
      · intro a ha
        rw [h₄ a (fun k hk => by rw [pushSlot_pushByte]; exact ha _ (by omega)), slot_pushByte, if_neg]
        intro e
        exact ha 0 (by omega) (by rw [pushSlot_zero h, e])

/-- Everything the loop of RB.POP can do (rule R112): it copies the oldest bytes, moves `tail`, and changes no
other field. -/
theorem popLoop_spec (n : Nat) (s : State) (out : List Byte) (h : IndexInv s) :
    popLoop n s out =
      ({ s with tail := s.queueSlot (min n s.occupancy) },
       out ++ (List.range (min n s.occupancy)).map (fun k => s.slot (s.queueSlot k))) := by
  induction n generalizing s out with
  | zero => simp [popLoop, queueSlot_zero h]
  | succ n ih =>
    rw [popLoop]
    by_cases he : s.empty = true
    · have hz := (empty_iff_occupancy h).1 he
      simp [he, hz, queueSlot_zero h]
    · have he' : s.empty = false := by simpa using he
      have hocc := occupancy_advanceTail h he'
      have hm : min (n + 1) s.occupancy = min n s.advanceTail.occupancy + 1 := by omega
      simp only [he', Bool.false_eq_true, if_false]
      rw [ih s.advanceTail _ (indexInv_advanceTail h), hm]
      simp only [queueSlot_advanceTail, Prod.mk.injEq]
      refine ⟨rfl, ?_⟩
      rw [List.range_succ_eq_map, List.map_cons, List.map_map, List.append_assoc, queueSlot_zero h]
      rfl

/-- The loop of RB.PUSH over two pieces of payload is the loop over the second after the loop over the first. -/
theorem pushLoop_append (as bs : List Byte) (s : State) (n : Nat) :
    pushLoop (as ++ bs) s n = pushLoop bs (pushLoop as s n).1 (pushLoop as s n).2 := by
  induction as generalizing s n with
  | nil => rfl
  | cons a as ih =>
    simp only [List.cons_append, pushLoop]
    split
    · rename_i hf
      cases bs with
      | nil => rfl
      | cons b bs => simp [pushLoop, hf]
    · exact ih _ _

/-- The loop of RB.PUSH keeps the canonical form of `storage` and lists every slot it stores to. -/
theorem pushLoop_storage (bs : List Byte) (s : State) (n : Nat) (h : IndexInv s)
    (hw : Memory.wf s.params.maxStorage s.storage = true) :
    Memory.wf s.params.maxStorage (pushLoop bs s n).1.storage = true ∧
    (∀ a, (∃ b, Memory.read s.storage a = some b) →
      ∃ b, Memory.read (pushLoop bs s n).1.storage a = some b) ∧
    (∀ k, k < min bs.length s.free → ∃ b, Memory.read (pushLoop bs s n).1.storage (s.pushSlot k) = some b) := by
  induction bs generalizing s n with
  | nil => simp [pushLoop, hw]
  | cons b bs ih =>
    rw [pushLoop]
    by_cases hf : s.full = true
    · have hz := (full_iff_free h).1 hf
      simp [hf, hw, hz]
    · have hf' : s.full = false := by simpa using hf
      have hfree := free_pushByte h hf' b
      obtain ⟨h₁, h₂, h₃⟩ := ih (s.pushByte b) (n + 1) (indexInv_pushByte h b)
        (Memory.wf_write b (lt_of_lt_of_le h.head_lt h.capacity_le) hw)
      simp only [hf', Bool.false_eq_true, if_false]
      refine ⟨h₁, fun a ⟨v, hv⟩ => h₂ a ?_, ?_⟩
      · rw [pushByte_storage, Memory.read_write]
        split
        · exact ⟨b, rfl⟩
        · exact ⟨v, hv⟩
      · rintro (_ | k) hk
        · refine h₂ _ ⟨b, ?_⟩
          rw [pushSlot_zero h, pushByte_storage, Memory.read_write_same]
        · rw [← pushSlot_pushByte s b]
          exact h₃ k (by simp only [List.length_cons] at hk; omega)

end Sys2Proof.Machine
end

