-- ==== Sys2Proof/Laws/Exec.lean ====
section
/-! SUPPORT. What each command can do, said once per command: if `exec` answers a next state, that state is the
old one (the command waits, rule R200) or the one written here. The provers cite these and never unfold a
meaning. The last lemmas say what a run is made of. -/

namespace Sys2Proof.Machine

theorem indexInv_consumePayload {s : State} (h : IndexInv s) (n : Nat) : IndexInv (s.consumePayload n) :=
  ⟨h.1, h.2, h.3, h.4⟩

@[simp] theorem takes_pushResponse (s : State) (len count : Nat) :
    s.takes (pushResponse len count) = s.rspReady := by simp [State.takes, pushResponse]

/-- In a state of the index invariant RB.PUSH does not stop. -/
theorem exec_push {s : State} (h : IndexInv s) (n : Nat) : exec (.push n) s = .next (pushCommand n s) := by
  simp [exec, execPush, (indicesInRange_iff s).2 h]

/-- In a state of the index invariant RB.POP does not stop. -/
theorem exec_pop {s : State} (h : IndexInv s) (n : Nat) : exec (.pop n) s = .next (popCommand n s) := by
  simp [exec, execPop, (indicesInRange_iff s).2 h]

/-- RB.PUSH when its payload is there and its response is taken; `pushLoop_spec` says what its `storage`
holds. -/
theorem pushCommand_eq {s : State} {n : Nat} (h : IndexInv s) (hr : s.rspReady = true)
    (hl : n ≤ s.din.length) :
    pushCommand n s = { s with
      storage := (pushLoop (s.din.take n) (s.consumePayload n) 0).1.storage
      head := s.pushSlot (min n s.free)
      totalPushed := truncN s.params.cntW (s.totalPushed + min n s.free)
      din := s.din.drop n
      cmdWord := none
      rsp := s.rsp ++ [pushResponse n (min n s.free)] } := by
  obtain ⟨h₁, h₂, -, -⟩ := pushLoop_spec (s.din.take n) (s.consumePayload n) 0 (indexInv_consumePayload h n)
  have hlen : (s.din.take n).length = n := by simp [hl]
  have hf : (s.consumePayload n).free = s.free := rfl
  have hp : ∀ k, (s.consumePayload n).pushSlot k = s.pushSlot k := fun _ => rfl
  rw [hlen, hf] at h₁ h₂
  rw [hp] at h₂
  have hc : (pushLoop (s.din.take n) (s.consumePayload n) 0).2 = min n s.free := by omega
  simp only [pushCommand, State.payloadPresented, hl, decide_true, if_true, pushPayload, State.payload]
  rw [respond_of_takes (by simp [hr]), hc]
  generalize (pushLoop (s.din.take n) (s.consumePayload n) 0).1 = t at *
  rw [h₂]
  rfl

/-- The bytes an RB.POP of `n` copies, oldest first (rule R112). -/
theorem popLoop_out {s : State} (h : IndexInv s) (n : Nat) :
    (popLoop n s []).2 = (List.range (min n s.occupancy)).map (fun k => s.slot (s.queueSlot k)) := by
  rw [popLoop_spec n s [] h, List.nil_append]

/-- RB.POP when its response, with its output bytes, is taken. -/
theorem popCommand_eq {s : State} {n : Nat} (h : IndexInv s)
    (ht : s.takes (popResponse n (popLoop n s []).2) = true) :
    popCommand n s = { s with
      tail := s.queueSlot (min n s.occupancy)
      totalPopped := truncN s.params.cntW (s.totalPopped + min n s.occupancy)
      cmdWord := none
      rsp := s.rsp ++ [popResponse n (popLoop n s []).2] } := by
  unfold popCommand
  rw [respond_of_takes ht, popLoop_spec n s [] h]
  simp [State.answered, State.countPopped]

theorem exec_configure_cases {s t : State} {c : Nat} (h : exec (.configure c) s = .next t) :
    t = s ∨ (s.rspReady = true ∧
      ((1 ≤ c ∧ c ≤ s.params.maxStorage ∧ t = (s.configured c).answered (plainResponse .ok 1#32)) ∨
       (¬ (1 ≤ c ∧ c ≤ s.params.maxStorage) ∧
        t = s.answered (plainResponse .invalidCapacity 0#32)))) := by
  simp only [exec, execConfigure, Host.Outcome.next.injEq] at h
  subst h
  unfold configureCommand State.capacityValid
  by_cases hv : 1 ≤ c ∧ c ≤ s.params.maxStorage
  · rcases respond_cases s (s.configured c) (plainResponse .ok 1#32) with ⟨a, b⟩ | ⟨a, b⟩ <;>
      simp_all
  · rcases respond_cases s s (plainResponse .invalidCapacity 0#32) with ⟨a, b⟩ | ⟨a, b⟩ <;>
      simp_all

theorem exec_reset_cases {s t : State} (h : exec .reset s = .next t) :
    t = s ∨ (s.rspReady = true ∧ t = s.bufferReset.answered (plainResponse .ok 0#32)) := by
  simp only [exec, execReset, Host.Outcome.next.injEq] at h
  subst h
  unfold resetCommand
  rcases respond_cases s s.bufferReset (plainResponse .ok 0#32) with ⟨a, b⟩ | ⟨a, b⟩ <;> simp [b]
  simp_all

theorem exec_push_cases {s t : State} {n : Nat} (h : exec (.push n) s = .next t) :
    IndexInv s ∧ (t = s ∨ (s.rspReady = true ∧ n ≤ s.din.length ∧ t = { s with
      storage := (pushLoop (s.din.take n) (s.consumePayload n) 0).1.storage
      head := s.pushSlot (min n s.free)
      totalPushed := truncN s.params.cntW (s.totalPushed + min n s.free)
      din := s.din.drop n
      cmdWord := none
      rsp := s.rsp ++ [pushResponse n (min n s.free)] })) := by
  have hi : IndexInv s := by
    by_contra hc
    rw [← indicesInRange_iff] at hc
    simp [exec, execPush, hc] at h
  refine ⟨hi, ?_⟩
  rw [exec_push hi] at h
  cases h
  by_cases hl : n ≤ s.din.length
  · by_cases hr : s.rspReady = true
    · exact .inr ⟨hr, hl, pushCommand_eq hi hr hl⟩
    · left
      simp only [pushCommand, State.payloadPresented, hl, decide_true, if_true, pushPayload]
      exact respond_of_not_takes (by simp [hr])
  · left; simp [pushCommand, State.payloadPresented, hl]

theorem exec_pop_cases {s t : State} {n : Nat} (h : exec (.pop n) s = .next t) :
    IndexInv s ∧ (t = s ∨ (s.rspReady = true ∧ t = { s with
      tail := s.queueSlot (min n s.occupancy)
      totalPopped := truncN s.params.cntW (s.totalPopped + min n s.occupancy)
      cmdWord := none
      rsp := s.rsp ++ [popResponse n (popLoop n s []).2] })) := by
  have hi : IndexInv s := by
    by_contra hc
    rw [← indicesInRange_iff] at hc
    simp [exec, execPop, hc] at h
  refine ⟨hi, ?_⟩
  rw [exec_pop hi] at h
  cases h
  by_cases ht : s.takes (popResponse n (popLoop n s []).2) = true
  · refine .inr ⟨?_, popCommand_eq hi ht⟩
    simp only [State.takes, Bool.and_eq_true] at ht
    exact ht.1
  · left
    unfold popCommand
    exact respond_of_not_takes (by simpa using ht)

/-- SYS.RDREG of either form: it writes nothing but the response (rule R151). -/
theorem rdregCommand_cases {s t : State} {v : Word} (h : rdregCommand v s = t) :
    t = s ∨ (s.rspReady = true ∧ t = s.answered (plainResponse .ok v)) := by
  subst h
  unfold rdregCommand
  rcases respond_cases s s (plainResponse .ok v) with ⟨a, b⟩ | ⟨a, b⟩ <;> simp [b]
  simp_all

theorem exec_rdreg_cases {s t : State} {r : Reg} (h : exec (.rdreg r) s = .next t) :
    t = s ∨ (s.rspReady = true ∧ t = s.answered (plainResponse .ok (s.regValue r))) := by
  simp only [exec, execRdreg, Host.Outcome.next.injEq] at h
  exact rdregCommand_cases h

theorem exec_rdregMaxStorage_cases {s t : State} (h : exec .rdregMaxStorage s = .next t) :
    t = s ∨ (s.rspReady = true ∧ t = s.answered (plainResponse .ok (valueOf s.params.maxStorage))) := by
  simp only [exec, execRdregMaxStorage, Host.Outcome.next.injEq] at h
  exact rdregCommand_cases h

theorem exec_checksum_cases {s t : State} {n : Nat} (h : exec (.checksum n) s = .next t) :
    t = s ∨ (s.rspReady = true ∧ n ≤ s.din.length ∧ t = { s with
      table := (s.consumePayload n).ensureTable.table
      ready := true
      din := s.din.drop n
      cmdWord := none
      rsp := s.rsp ++ [plainResponse .ok
        (zext32 ((s.consumePayload n).ensureTable.crcLoop Config.crcInit (s.din.take n)))] }) := by
  simp only [exec, execChecksum, Host.Outcome.next.injEq] at h
  subst h
  by_cases hl : n ≤ s.din.length
  · simp only [checksumCommand, State.payloadPresented, hl, decide_true, if_true, checksumPayload]
    rcases respond_cases s (s.consumePayload n).ensureTable (plainResponse .ok
        (zext32 ((s.consumePayload n).ensureTable.crcLoop Config.crcInit (s.payload n)))) with
      ⟨a, b⟩ | ⟨a, b⟩
    · right
      refine ⟨by simpa using a, trivial, ?_⟩
      rw [b]
      generalize hz : State.crcLoop _ _ _ = z
      have hz' : (s.consumePayload n).ensureTable.crcLoop Config.crcInit (s.din.take n) = z := hz
      rw [hz', ensureTable_eq]
      rfl
    · exact .inl b
  · left; simp [checksumCommand, State.payloadPresented, hl]

/-- A command whose payload is not all there waits, unchanged (rule R200). -/
theorem exec_waits {s : State} {i : Instr} (h : IndexInv s) (hp : s.din.length < payloadBytes i) :
    exec i s = .next s := by
  cases i with
  | push n =>
    have hn : ¬ n ≤ s.din.length := by simp only [payloadBytes] at hp; omega
    rw [exec_push h]; simp [pushCommand, State.payloadPresented, hn]
  | checksum n =>
    have hn : ¬ n ≤ s.din.length := by simp only [payloadBytes] at hp; omega
    simp [exec, execChecksum, checksumCommand, State.payloadPresented, hn]
  | _ => simp [payloadBytes] at hp

/-- A command whose payload is there comes to its `respond`, and what it responds does not depend on whether the
host takes it. -/
theorem exec_responds {s : State} {i : Instr} (h : IndexInv s) (hp : payloadBytes i ≤ s.din.length) :
    ∃ r, ∀ a b, ∃ t : State, t.rsp = s.rsp ∧
      exec i { s with doutReady := a, rspReady := b } =
        .next (respond { s with doutReady := a, rspReady := b } t r) := by
  have hi : ∀ a b, IndexInv { s with doutReady := a, rspReady := b } := fun _ _ => ⟨h.1, h.2, h.3, h.4⟩
  cases i with
  | configure c =>
    by_cases hc : s.capacityValid c = true
    · refine ⟨plainResponse .ok 1#32, fun a b => ⟨State.configured { s with doutReady := a, rspReady := b } c, rfl, ?_⟩⟩
      have hc' : State.capacityValid { s with doutReady := a, rspReady := b } c = true := hc
      simp [exec, execConfigure, configureCommand, hc']
    · refine ⟨plainResponse .invalidCapacity 0#32, fun a b => ⟨{ s with doutReady := a, rspReady := b }, rfl, ?_⟩⟩
      have hc' : ¬ State.capacityValid { s with doutReady := a, rspReady := b } c = true := hc
      simp [exec, execConfigure, configureCommand, hc']
  | reset =>
    exact ⟨plainResponse .ok 0#32, fun a b =>
      ⟨State.bufferReset { s with doutReady := a, rspReady := b }, rfl, rfl⟩⟩
  | push n =>
    refine ⟨pushResponse n (min n s.free), fun a b => ?_⟩
    obtain ⟨h₁, h₂, -, -⟩ := pushLoop_spec (s.din.take n)
      (State.consumePayload n { s with doutReady := a, rspReady := b }) 0 (indexInv_consumePayload (hi a b) n)
    have hn : n ≤ s.din.length := hp
    have hf : (State.consumePayload n { s with doutReady := a, rspReady := b }).free = s.free := rfl
    rw [List.length_take, Nat.min_eq_left hn, Nat.zero_add, hf] at h₁
    refine ⟨(pushLoop (s.din.take n) (State.consumePayload n { s with doutReady := a, rspReady := b }) 0).1.countPushed
      (min n s.free), ?_, ?_⟩
    · rw [countPushed_rsp, h₂]; rfl
    · rw [exec_push (hi a b)]
      simp only [pushCommand, State.payloadPresented, hn, decide_true, if_true, pushPayload, State.payload, h₁]
  | pop n =>
    refine ⟨popResponse n (popLoop n s []).2, fun a b =>
      ⟨(popLoop n { s with doutReady := a, rspReady := b } []).1.countPopped (popLoop n s []).2.length, ?_, ?_⟩⟩
    · rw [countPopped_rsp, popLoop_spec n _ [] (hi a b)]
    · have ho : (popLoop n { s with doutReady := a, rspReady := b } []).2 = (popLoop n s []).2 := by
        rw [popLoop_out (hi a b), popLoop_out h]; rfl
      rw [exec_pop (hi a b)]
      simp only [popCommand, ho]
  | checksum n =>
    have hn : n ≤ s.din.length := hp
    refine ⟨plainResponse .ok (zext32 ((s.consumePayload n).ensureTable.crcLoop Config.crcInit (s.payload n))),
      fun a b => ⟨(State.consumePayload n { s with doutReady := a, rspReady := b }).ensureTable, ?_, ?_⟩⟩
    · rw [ensureTable_eq]; rfl
    · have hc : ∀ c bs, (State.consumePayload n { s with doutReady := a, rspReady := b }).ensureTable.crcLoop c bs =
          (s.consumePayload n).ensureTable.crcLoop c bs :=
        crcLoop_congr (tblRead_congr (ensureTable_table_congr rfl rfl)
          (by rw [ensureTable_resets, ensureTable_resets]; rfl))
      simp only [exec, execChecksum, checksumCommand, State.payloadPresented, hn, decide_true, if_true,
        checksumPayload, hc]
      rfl
  | rdreg r =>
    refine ⟨plainResponse .ok (s.regValue r), fun a b => ⟨{ s with doutReady := a, rspReady := b }, rfl, ?_⟩⟩
    cases r <;> rfl
  | rdregMaxStorage =>
    exact ⟨plainResponse .ok (valueOf s.params.maxStorage), fun a b =>
      ⟨{ s with doutReady := a, rspReady := b }, rfl, rfl⟩⟩

/-- A run of `k + 1` steps whose first step answers a next state goes on from it. -/
theorem run_succ_of_step {s t : core.State} (k : Nat) (h : core.step s = .next t) :
    core.run (k + 1) s = core.run k t := by
  simp only [Host.Core.run, h]

end Sys2Proof.Machine
end

