-- ==== Sys2Proof/Laws/PerInstr.lean ====
section
/-! SUPPORT. A statement about every instruction, one lemma per constructor: the word an instruction encodes to
carries the bits its row of the opcode table fixes. -/

namespace Sys2Proof.Laws

/-- The `mask` column of the opcode table: which bits of the word the row fixes. -/
def EncodeMatchesTable.mask : Instr → Word
  | .configure _ => 0xFF000000#32
  | .reset => 0xFFFFFFFF#32
  | .push _ => 0xFF000000#32
  | .pop _ => 0xFF000000#32
  | .checksum _ => 0xFF000000#32
  | .rdreg _ => 0xFFFFFFF8#32
  | .rdregMaxStorage => 0xFFFFFFFF#32

/-- The `match` column of the opcode table: the values of those bits. -/
def EncodeMatchesTable.bits : Instr → Word
  | .configure _ => 0x10000000#32
  | .reset => 0x11000000#32
  | .push _ => 0x12000000#32
  | .pop _ => 0x13000000#32
  | .checksum _ => 0x20000000#32
  | .rdreg _ => 0x30000000#32
  | .rdregMaxStorage => 0x30000008#32

/-- The instruction's word matches its row of the opcode table. -/
def EncodeMatchesTable.Statement (i : Instr) : Prop :=
  encode i &&& EncodeMatchesTable.mask i = EncodeMatchesTable.bits i

/-- The bits of a command word above its operand are its opcode's. -/
theorem commandWord_and_opcode (op : BitVec 8) (n : Nat) :
    commandWord op n &&& 0xFF000000#32 = op ++ 0#24 := by
  have h : (0xFF000000#32 : Word) = BitVec.allOnes 8 ++ 0#24 := by decide
  unfold commandWord
  rw [h, BitVec.and_append, BitVec.and_allOnes, BitVec.and_zero]

theorem EncodeMatchesTable.configure (c : Nat) : EncodeMatchesTable.Statement (.configure c) :=
  (commandWord_and_opcode _ c).trans (by dsimp only [EncodeMatchesTable.bits]; decide)

theorem EncodeMatchesTable.reset : EncodeMatchesTable.Statement .reset := by
  unfold EncodeMatchesTable.Statement; decide

theorem EncodeMatchesTable.push (len : Nat) : EncodeMatchesTable.Statement (.push len) :=
  (commandWord_and_opcode _ len).trans (by dsimp only [EncodeMatchesTable.bits]; decide)

theorem EncodeMatchesTable.pop (maxLen : Nat) : EncodeMatchesTable.Statement (.pop maxLen) :=
  (commandWord_and_opcode _ maxLen).trans (by dsimp only [EncodeMatchesTable.bits]; decide)

theorem EncodeMatchesTable.checksum (len : Nat) : EncodeMatchesTable.Statement (.checksum len) :=
  (commandWord_and_opcode _ len).trans (by dsimp only [EncodeMatchesTable.bits]; decide)

theorem EncodeMatchesTable.rdreg (r : Reg) : EncodeMatchesTable.Statement (.rdreg r) := by
  unfold EncodeMatchesTable.Statement; cases r <;> decide

theorem EncodeMatchesTable.rdregMaxStorage : EncodeMatchesTable.Statement .rdregMaxStorage := by
  unfold EncodeMatchesTable.Statement; decide

end Sys2Proof.Laws
end

