-- ==== Sys2Proof/Laws/Ports.lean ====
section
/-! SUPPORT. The outputs of the block: the response due, by what is in progress. -/

namespace Sys2Proof.Machine

@[simp] theorem responseDue_of_rst {s : State} (h : s.rst = true) : s.responseDue = none := by
  simp [State.responseDue, h]

@[simp] theorem responseDue_of_idle {s : State} (h : s.cmdWord = none) : s.responseDue = none := by
  simp [State.responseDue, h]

/-- A step with a command in progress serves it. -/
theorem step_of_inProgress {s : State} {w : Word} (hr : s.rst = false) (hw : s.cmdWord = some w) :
    step s = serve w s := by simp [step, hr, State.acceptCommand, hw]

/-- With a command in progress the response due is the one serving it adds. -/
theorem responseDue_of_inProgress {s : State} {w : Word} (hr : s.rst = false) (hw : s.cmdWord = some w) :
    s.responseDue = newResponse s (serve w { s with doutReady := true, rspReady := true }) := by
  unfold State.responseDue
  rw [if_neg (by simp [hr])]
  split
  · rename_i h; rw [hw] at h; cases h
  · rename_i h; rw [hw] at h; cases h; rfl

/-- A command that comes to its `respond` adds its response where all output is taken. -/
theorem newResponse_respond {s u t : State} {r : Response} (ht : t.rsp = s.rsp) (hu : u.takes r = true) :
    newResponse s (.next (respond u t r)) = some r := by
  rw [respond_of_takes hu]
  simp [newResponse, ht]

/-- A reserved word in progress has its response ready at once. -/
theorem responseDue_of_reserved {s : State} {w : Word} {e : Reserved} (hr : s.rst = false)
    (hw : s.cmdWord = some w) (hd : decode w = .error e) :
    s.responseDue = some (plainResponse .illegalCmd 0#32) := by
  rw [responseDue_of_inProgress hr hw]
  unfold serve
  rw [hd]
  exact newResponse_respond rfl (by simp)

/-- A command that lacks payload has no response ready. -/
theorem responseDue_of_waits {s : State} {w : Word} {i : Instr} (hi : IndexInv s) (hr : s.rst = false)
    (hw : s.cmdWord = some w) (hd : decode w = .ok i) (hp : s.din.length < payloadBytes i) :
    s.responseDue = none := by
  rw [responseDue_of_inProgress hr hw]
  unfold serve
  rw [hd]
  dsimp only
  rw [exec_waits (s := { s with doutReady := true, rspReady := true }) ⟨hi.1, hi.2, hi.3, hi.4⟩ hp]
  simp [newResponse]

/-- A command whose payload is there has its response ready. -/
theorem responseDue_of_responds {s t : State} {w : Word} {i : Instr} {r : Response} (hr : s.rst = false)
    (hw : s.cmdWord = some w) (hd : decode w = .ok i) (ht : t.rsp = s.rsp)
    (h : exec i { s with doutReady := true, rspReady := true } =
      .next (respond { s with doutReady := true, rspReady := true } t r)) :
    s.responseDue = some r := by
  rw [responseDue_of_inProgress hr hw]
  unfold serve
  rw [hd]
  dsimp only
  rw [h]
  exact newResponse_respond ht (by simp [State.takes])

/-- Everything the step of a command in progress can do, by the response it has ready: with none it waits; with
one it responds. -/
theorem step_responds {s : State} {w : Word} (hi : IndexInv s) (hr : s.rst = false) (hw : s.cmdWord = some w) :
    (s.responseDue = none ∧ step s = .next s) ∨
    ∃ r t, s.responseDue = some r ∧ t.rsp = s.rsp ∧ step s = .next (respond s t r) := by
  rw [step_of_inProgress hr hw]
  cases hd : decode w with
  | error e =>
    exact .inr ⟨_, s, responseDue_of_reserved hr hw hd, rfl, by simp [serve, hd, illegalCommand]⟩
  | ok i =>
    have hs : serve w s = exec i s := by simp [serve, hd]
    rw [hs]
    by_cases hp : payloadBytes i ≤ s.din.length
    · obtain ⟨r, h⟩ := exec_responds hi hp
      obtain ⟨t, ht, he⟩ := h s.doutReady s.rspReady
      obtain ⟨u, hu, hf⟩ := h true true
      exact .inr ⟨r, t, responseDue_of_responds hr hw hd hu hf, ht, he⟩
    · exact .inl ⟨responseDue_of_waits hi hr hw hd (by omega), exec_waits hi (by omega)⟩

end Sys2Proof.Machine
end

