-- ==== Sys2Proof/Tests/Slice0.lean ====
section
/-! SUPPORT. The model's own tests: ill-formed terms are refused, words written out bit by bit decode, one step of
each command on a small state against the examples of the spec's rules, and, for each obligation with hypotheses,
a concrete state and operands that meet all of them. Expected values come from the rules named. -/

namespace Sys2Proof.Tests

open Sys2Proof.Machine

/-! Well-formedness: one ill-formed term for each check. -/

theorem test_configure_operand_of_25_bits_refused : ¬ (Instr.configure 0x1000000).WellFormed := by decide
theorem test_push_operand_of_25_bits_refused : ¬ (Instr.push 0x1000000).WellFormed := by decide
theorem test_pop_operand_of_25_bits_refused : ¬ (Instr.pop 0x1000000).WellFormed := by decide
theorem test_checksum_operand_of_25_bits_refused : ¬ (Instr.checksum 0x1000000).WellFormed := by decide
theorem test_frame_with_short_payload_refused :
    ¬ ({ word := 0x12000002#32, payload := [0xA0#8] } : Frame).WellFormed := by decide
theorem test_frame_with_payload_for_pop_refused :
    ¬ ({ word := 0x13000001#32, payload := [0xA0#8] } : Frame).WellFormed := by decide
theorem test_parameters_with_zero_reset_capacity_refused :
    ¬ ({ maxStorage := 4, cntW := 8, resetCapacity := 0 } : Config.Params).Valid := by
  rintro ⟨-, -, h, -⟩
  exact absurd h (by decide)

/-! Decoding: `unit` and `func` in binary (rule R72), then the 24 bits of `arg`. -/

theorem test_decode_configure :
    decode (0b0001#4 ++ 0b0000#4 ++ 0b000000000000000000001000#24) = .ok (.configure 8) := by decide
theorem test_decode_reset :
    decode (0b0001#4 ++ 0b0001#4 ++ 0b000000000000000000000000#24) = .ok .reset := by decide
theorem test_decode_push :
    decode (0b0001#4 ++ 0b0010#4 ++ 0b100000000000000000000110#24) = .ok (.push 0x800006) := by decide
theorem test_decode_pop :
    decode (0b0001#4 ++ 0b0011#4 ++ 0b000000000000000100000011#24) = .ok (.pop 259) := by decide
theorem test_decode_checksum :
    decode (0b0010#4 ++ 0b0000#4 ++ 0b000000000000000000001001#24) = .ok (.checksum 9) := by decide
theorem test_decode_rdreg :
    (List.range 9).map (fun n => decode (0x30000000#32 + BitVec.ofNat 32 n)) =
      [.ok (.rdreg .rbCapacity), .ok (.rdreg .rbHead), .ok (.rdreg .rbTail), .ok (.rdreg .rbStatus),
       .ok (.rdreg .rbCount), .ok (.rdreg .rbTotalPushed), .ok (.rdreg .rbTotalPopped),
       .ok (.rdreg .crcStatus), .ok .rdregMaxStorage] := by decide
theorem test_decode_reset_with_operand_rejected : decode 0x11000001#32 = .error .resetOperand := by decide
theorem test_decode_register_9_rejected : decode 0x30000009#32 = .error .registerNumber := by decide
theorem test_decode_register_of_24_bits_rejected : decode 0x30FFFFFF#32 = .error .registerNumber := by decide
theorem test_decode_zero_and_ones_rejected :
    decode 0x00000000#32 = .error .opcode ∧ decode 0xFFFFFFFF#32 = .error .opcode := by decide
theorem test_decode_neighbour_opcodes_rejected :
    decode 0x14000001#32 = .error .opcode ∧ decode 0x21000000#32 = .error .opcode ∧
    decode 0x31000000#32 = .error .opcode ∧ decode 0x0F000000#32 = .error .opcode := by decide
theorem test_encode_words :
    encode (.configure 1024) = 0x10000400#32 ∧ encode .reset = 0x11000000#32 ∧
    encode (.push 6) = 0x12000006#32 ∧ encode (.pop 3) = 0x13000003#32 ∧
    encode (.checksum 9) = 0x20000009#32 ∧ encode (.rdreg .rbStatus) = 0x30000003#32 ∧
    encode .rdregMaxStorage = 0x30000008#32 := by decide
theorem test_decodeTableWord :
    decodeTableWord 32 0x12000406 = some (.push 1030) ∧ decodeTableWord 32 0x14000000 = none := by decide

/-! One step on a small state. -/

/-- The next state an outcome holds. -/
def after (o : Host.Outcome State Fault Refusal) : Option State :=
  match o with
  | .next s => some s
  | .fault _ => none
  | .refused _ => none

/-- A ring of `c` bytes with the given cursors and slots, otherwise as after reset. -/
def ring (c h t : Nat) (slots : List Host.Cell) : State :=
  { State.reset with capacity := c, head := h, tail := t, storage := slots }

/-- One step in `s` with one frame presented. -/
def stepOn (s : State) (w : Word) (payload : List Byte) : Option State :=
  after (step (s.present [{ word := w, payload := payload }]))

/-- The state of rule R109's example: `capacity` 8, `head` 6, `tail` 3, so three bytes queued, four free. The
counters are those of three bytes pushed. -/
def ring8 : State :=
  { ring 8 6 3 [(3, 0x01#8), (4, 0x02#8), (5, 0x03#8)] with totalPushed := 3 }

/-- `ring8` with the payload of rule R109's example presented, and with a push of it in progress. -/
def ring8Push : State :=
  { ring8 with
    din := [0xA0#8, 0xA1#8, 0xA2#8, 0xA3#8, 0xA4#8, 0xA5#8]
    cmdWord := some 0x12000006#32 }

/-- The state of rule R113's example: `capacity` 8, `head` 2, `tail` 6, four bytes queued across the wrap. -/
def ringWrap : State :=
  { ring 8 2 6 [(0, 0x33#8), (1, 0x44#8), (6, 0x11#8), (7, 0x22#8)] with totalPushed := 4 }

/-- A block whose table has been built, with the payload `d` presented. -/
def built (d : List Byte) : State := { State.reset.ensureTable with din := d }

/-- Rule R101: from any state `rb.configure 8` empties the ring; the counters and `storage` stay. -/
theorem test_configure_example :
    stepOn ringWrap 0x10000008#32 [] = some { ringWrap with
      capacity := 8, head := 0, tail := 0
      rsp := [{ status := .ok, value := 1#32, out := [], evTrunc := false }] } := by decide

/-- Rule R102: with `MAX_STORAGE` 1024 a request of 1025 is refused and the queue is kept. -/
theorem test_configure_out_of_range :
    stepOn ringWrap 0x10000401#32 [] = some { ringWrap with
      rsp := [{ status := .invalidCapacity, value := 0#32, out := [], evTrunc := false }] } := by decide

/-- Rule R104's example. -/
theorem test_reset_example :
    stepOn { ring 8 3 1 [] with totalPushed := 11, totalPopped := 9 } 0x11000000#32 [] =
      some { ring 8 0 0 [] with
        rsp := [{ status := .ok, value := 0#32, out := [], evTrunc := false }] } := by decide

/-- Rule R109's example: four of six bytes are stored, across the wrap, and `ev_trunc` is raised. -/
theorem test_push_example :
    stepOn ring8 0x12000006#32 [0xA0#8, 0xA1#8, 0xA2#8, 0xA3#8, 0xA4#8, 0xA5#8] = some { ring8 with
      storage := [(0, 0xA2#8), (1, 0xA3#8), (3, 0x01#8), (4, 0x02#8), (5, 0x03#8), (6, 0xA0#8), (7, 0xA1#8)]
      head := 2, totalPushed := 7
      rsp := [{ status := .partialTransfer, value := 4#32, out := [], evTrunc := true }] } := by decide

/-- Rule R24: a counter of `CNT_W` bits wraps. -/
theorem test_push_counter_wraps :
    (stepOn { ring8 with totalPushed := 0xFFFFFFFF } 0x12000001#32 [0xA0#8]).map (fun t => t.totalPushed) =
      some 0 := by decide

/-- Rule R113's example, first command. -/
theorem test_pop_example :
    stepOn ringWrap 0x13000003#32 [] = some { ringWrap with
      tail := 1, totalPopped := 3
      rsp := [{ status := .ok, value := 3#32, out := [0x11#8, 0x22#8, 0x33#8], evTrunc := false }] } := by
  decide

/-- Rule R113's example, second command: one byte is left of the five asked. -/
theorem test_pop_partial :
    stepOn { ringWrap with tail := 1 } 0x13000005#32 [] = some { ringWrap with
      tail := 2, totalPopped := 1
      rsp := [{ status := .partialTransfer, value := 1#32, out := [0x44#8], evTrunc := false }] } := by decide

/-- Rule R137: the published check value, from a block whose table is not built. -/
theorem test_checksum_check_value :
    (stepOn State.reset 0x20000009#32 checkMessage).map (fun t => (t.ready, t.rsp)) =
      some (true, [{ status := .ok, value := 0x000029B1#32, out := [], evTrunc := false }]) := by
  decide +kernel

/-- Rule R136: the empty input yields the initial value. -/
theorem test_checksum_of_nothing :
    (stepOn { ring8 with ready := true } 0x20000000#32 []).map (fun t => t.rsp.map (fun r => r.value)) =
      some [0x0000FFFF#32] := by decide

/-- Rule R152: every register of rule R113's state. -/
theorem test_rdreg_values :
    (List.range 9).map (fun n => (stepOn { ringWrap with totalPopped := 9 }
        (0x30000000#32 + BitVec.ofNat 32 n) []).map (fun t => t.rsp.map (fun r => r.value))) =
      [some [8#32], some [2#32], some [6#32], some [0#32], some [4#32], some [4#32], some [9#32],
       some [0#32], some [1024#32]] := by decide

/-- Rules R153, R29: both flags with `capacity` 1, `FULL` alone in a full ring. -/
theorem test_rdreg_status_flags :
    (stepOn (ring 1 0 0 []) 0x30000003#32 []).map (fun t => t.rsp.map (fun r => r.value)) = some [3#32] ∧
    (stepOn (ring 8 2 3 []) 0x30000003#32 []).map (fun t => t.rsp.map (fun r => r.value)) = some [2#32] := by
  decide

/-- Rule R78: a reserved word is answered and changes nothing else. -/
theorem test_reserved_word :
    stepOn ringWrap 0x22000004#32 [] = some { ringWrap with
      rsp := [{ status := .illegalCmd, value := 0#32, out := [], evTrunc := false }] } := by decide

/-- Rules R190, R193: a push in progress is abandoned without a response, and its bytes are gone. -/
theorem test_hardware_reset :
    after (step { ring8Push with rst := true, cmdIn := [0x11000000#32] }) =
      some { State.reset with rst := true, cmdIn := [0x11000000#32], resets := 1 } := by decide

/-- Rule R200: a push whose payload is short waits, as accepted. -/
theorem test_push_waits :
    stepOn ring8 0x12000002#32 [0xA0#8] =
      some { ring8 with cmdWord := some 0x12000002#32, din := [0xA0#8] } := by decide

/-- Rule R78, with rule R200: a reserved word whose response was not taken is answered in a later step. -/
theorem test_reserved_word_in_progress :
    after (step { ring8 with cmdWord := some 0x30000009#32, cmdIn := [0x11000000#32] }) = some { ring8 with
      cmdIn := [0x11000000#32]
      rsp := [{ status := .illegalCmd, value := 0#32, out := [], evTrunc := false }] } := by decide

/-- Rule R191: the outputs after reset. -/
theorem test_outputs_after_reset :
    (State.reset.cmdReady, State.reset.dinReady, State.reset.doutValid, State.reset.rspValid,
      State.reset.evTruncLevel) = (true, false, false, false, false) := by decide

/-- Rules R86 (c), R167: a pop offers its oldest byte before its response, a truncated push raises
`ev_trunc` while its response is transferred and not while it waits. -/
theorem test_outputs_while_waiting :
    ({ ringWrap with doutReady := false, cmdWord := some 0x13000003#32 } : State).doutOffered = some 0x11#8 ∧
    ({ ringWrap with doutReady := false, cmdWord := some 0x13000003#32 } : State).rspValid = false ∧
    ({ ring8Push with rspReady := false } : State).rspValid = true ∧
    ({ ring8Push with rspReady := false } : State).evTruncLevel = false ∧ ring8Push.evTruncLevel = true := by decide

/-- The fetch word is accepted and run by the next step. -/
theorem test_withFetchWord :
    (after (step (State.reset.withFetchWord 32 0x12000002))).map (fun t => (t.head, t.din, t.storage)) =
      some (2, [], [(0, 0#8), (1, 0#8)]) := by decide

/-- A memory stays sorted and holds one entry per address. -/
theorem test_memory_write :
    Memory.write (Memory.write [(1, 0xAA#8), (5, 0xBB#8)] 3 0xCC#8) 5 0xDD#8 =
      [(1, 0xAA#8), (3, 0xCC#8), (5, 0xDD#8)] := by decide
theorem test_memory_out_of_order_refused : Memory.wf 8 [(5, 0xAA#8), (1, 0xBB#8)] = false := by decide
theorem test_memory_outside_refused : Memory.wf 8 [(8, 0xAA#8)] = false := by decide

/-- Rules R83, R84: a comment, a string and a pseudo-command. -/
theorem test_assembler :
    assembleLine "rb.push 0xA0 7 ; two bytes" = some { word := 0x12000002#32, payload := [0xA0#8, 7#8] } ∧
    assembleLine "rb.pop1" = some { word := 0x13000001#32, payload := [] } ∧
    assembleLine "rb.push 256" = none ∧ assembleLine "rb.reset 1" = none := by decide +kernel

/-! Witnesses: for each obligation with hypotheses, a state and operands that meet them all. -/

/-- The full ring of eight slots: `head` just behind `tail`. -/
def ringFull : State := { ring 8 2 3 [] with din := [0x55#8] }

/-- A build of one byte of storage: the least `MAX_STORAGE`. -/
def tinyParams : Config.Params := { maxStorage := 1, cntW := 1, resetCapacity := 1 }

/-- A build of the greatest `MAX_STORAGE`. -/
def hugeParams : Config.Params := { maxStorage := 0xFFFFFE, cntW := 24, resetCapacity := 0xFFFFFE }

theorem indexInv_ring8 : IndexInv ring8 := (indicesInRange_iff _).1 (by decide)
theorem indexInv_ring8Push : IndexInv ring8Push := (indicesInRange_iff _).1 (by decide)
theorem indexInv_ringWrap : IndexInv ringWrap := (indicesInRange_iff _).1 (by decide)
theorem indexInv_ringFull : IndexInv ringFull := (indicesInRange_iff _).1 (by decide)
theorem indexInv_ring1 : IndexInv (ring 1 0 0 []) := (indicesInRange_iff _).1 (by decide)
theorem indexInv_ring2 : IndexInv (ring 2 1 0 []) := (indicesInRange_iff _).1 (by decide)
theorem readyInv_ring8Push : ReadyInv ring8Push := readyInv_of_not_ready rfl

theorem valid_tinyParams : tinyParams.Valid := by
  refine ⟨by decide, ⟨?_, by decide⟩, by decide⟩
  show Nat.log 2 1 + 1 ≤ 1
  simp

theorem valid_hugeParams : hugeParams.Valid := by
  refine ⟨by decide, ⟨?_, by decide⟩, by decide⟩
  have h : Nat.log 2 0xFFFFFE < 24 := Nat.log_lt_of_lt_pow (by decide) (by decide)
  show Nat.log 2 0xFFFFFE + 1 ≤ 24
  omega

theorem valid_default : Config.Params.default.Valid := by
  refine ⟨by decide, ⟨?_, by decide⟩, by decide⟩
  have h : Nat.log 2 1024 < 11 := Nat.log_lt_of_lt_pow (by decide) (by decide)
  show Nat.log 2 1024 + 1 ≤ 32
  omega

theorem ready_ensureTable (s : State) : s.ensureTable.ready = true := by rw [ensureTable_eq]

theorem ready_built (d : List Byte) : (built d).ready = true := by
  unfold built; dsimp only; exact ready_ensureTable State.reset

theorem rspReady_ensureTable (s : State) : s.ensureTable.rspReady = s.rspReady := by rw [ensureTable_eq]

theorem rspReady_built (d : List Byte) : (built d).rspReady = true := by
  unfold built; dsimp only; exact rspReady_ensureTable State.reset

theorem din_built (d : List Byte) : (built d).din = d := rfl

theorem readyInv_ensureTable {s : State} (h : ReadyInv s) (d : List Byte) :
    ReadyInv { s.ensureTable with din := d } := fun _ _ hi => read_ensureTable h hi

theorem readyInv_built (d : List Byte) : ReadyInv (built d) :=
  readyInv_ensureTable (readyInv_of_not_ready rfl) d

/-- A state of the whole invariant with three bytes queued. -/
theorem inv_ring8 : Inv ring8 where
  params_valid := valid_default
  index := indexInv_ring8
  counters := ⟨by decide, by decide⟩
  memory := ⟨by decide, by decide⟩
  ready_table := readyInv_of_not_ready rfl
  queued_written := by
    have h : ∀ k, k < 3 → (Memory.read ring8.storage (ring8.queueSlot k)).isSome = true := by decide
    intro k hk
    exact Option.isSome_iff_exists.1 (h k hk)

theorem test_witness_DecodeOfEncodeIsIdentity : (Instr.push 0xFFFFFF).WellFormed ∧
    (Instr.configure 0).WellFormed := by decide

theorem test_witness_EncodeOfDecodedIsSameWord : decode 0x13FFFFFF#32 = .ok (.pop 0xFFFFFF) := by decide

theorem test_witness_ReservedWordsByReason :
    opOf 0x32000000#32 ∉ definedOpcodes ∧ (opOf 0x11FFFFFF#32 = opReset ∧ argOf 0x11FFFFFF#32 ≠ 0) ∧
    (opOf 0x30000009#32 = opRdreg ∧ 8 < argOf 0x30000009#32) := by decide

theorem test_witness_PayloadLengthFixedByWord : decode 0x12FFFFFF#32 = .ok (.push 0xFFFFFF) := by decide

theorem test_witness_StepRunsDecodedCommand :
    decode 0x12000006#32 = .ok (.push 6) ∧
    (let s : State := { ring8 with cmdIn := [0x12000006#32, 0x11000000#32] }
     s.rst = false ∧ s.cmdWord = none ∧ s.cmdIn = 0x12000006#32 :: [0x11000000#32]) ∧
    (ring8Push.rst = false ∧ ring8Push.cmdWord = some 0x12000006#32) := by decide

theorem test_witness_UndefinedOpcodeAnswersIllegal :
    (let s : State := { ring8 with cmdIn := [0x14000000#32], din := [0xA0#8] }
     s.rst = false ∧ s.cmdWord = none ∧ s.cmdIn = 0x14000000#32 :: [] ∧ s.rspReady = true) ∧
    (let s : State := { ring8 with cmdWord := some 0x14000000#32, cmdIn := [0x11000000#32] }
     s.rst = false ∧ s.cmdWord = some 0x14000000#32 ∧ s.rspReady = true) ∧
    opOf 0x14000000#32 ∉ [0x10#8, 0x11#8, 0x12#8, 0x13#8, 0x20#8, 0x30#8] := by decide

theorem test_witness_ReservedOperandsAnswerIllegal :
    (let s : State := { ring8 with cmdIn := [0x11000001#32] }
     s.rst = false ∧ s.cmdWord = none ∧ s.cmdIn = 0x11000001#32 :: [] ∧ s.rspReady = true ∧
       opOf 0x11000001#32 = 0x11#8 ∧ argOf 0x11000001#32 ≠ 0) ∧
    (let s : State := { ring8 with cmdIn := [0x30000009#32] }
     s.rst = false ∧ s.cmdWord = none ∧ s.cmdIn = 0x30000009#32 :: [] ∧ s.rspReady = true ∧
       opOf 0x30000009#32 = 0x30#8 ∧ 8 < argOf 0x30000009#32) ∧
    (let s : State := { ring8 with cmdWord := some 0x11000001#32 }
     s.rst = false ∧ s.cmdWord = some 0x11000001#32 ∧ s.rspReady = true) ∧
    (let s : State := { ring8 with cmdWord := some 0x30000009#32 }
     s.rst = false ∧ s.cmdWord = some 0x30000009#32 ∧ s.rspReady = true) ∧
    (opOf 0x11000000#32 ∈ [0x10#8, 0x11#8, 0x12#8, 0x13#8, 0x20#8, 0x30#8] ∧ argOf 0x11000000#32 = 0) ∧
    (opOf 0x30000008#32 ∈ [0x10#8, 0x11#8, 0x12#8, 0x13#8, 0x20#8, 0x30#8] ∧ argOf 0x30000008#32 = 8) := by
  decide

theorem test_witness_IdleBlockKeepsState :
    ring8.rst = false ∧ ring8.cmdWord = none ∧ ring8.cmdIn = [] := by decide

theorem test_witness_WordsAcceptedOnlyWhenIdle :
    let s : State := { ring8 with cmdIn := [0x11000000#32] }
    ∃ t, step s = .next t ∧ t.cmdIn ≠ s.cmdIn := ⟨_, rfl, by decide⟩

theorem test_witness_HardwareResetState :
    ({ ring8Push with rst := true } : State).rst = true ∧
    (let s : State := { ring8Push with rst := true, params := tinyParams }
     s.rst = true ∧ 1 ≤ s.params.resetCapacity) := by decide

theorem test_witness_RegistersAfterHardwareReset :
    ({ ring8 with params := tinyParams } : State).params.Valid ∧
    ({ ring8 with params := hugeParams } : State).params.Valid := ⟨valid_tinyParams, valid_hugeParams⟩

theorem test_witness_ConfigureSetsCapacity :
    ring8.rspReady = true ∧ 1 ≤ 1 ∧ 1 ≤ ring8.params.maxStorage ∧ 1 < 2 ^ 24 ∧
    1 ≤ 1024 ∧ 1024 ≤ ring8.params.maxStorage ∧ 1024 < 2 ^ 24 := by decide

theorem test_witness_ConfigureFailsOutOfRange :
    ring8.rspReady = true ∧ (0 = 0 ∨ ring8.params.maxStorage < 0) ∧
    (1025 = 0 ∨ ring8.params.maxStorage < 1025) ∧
    (∃ t r, exec (.configure 1024) ring8 = .next t ∧ t.rsp = ring8.rsp ++ [r] ∧ r.status = .ok) :=
  ⟨by decide, by decide, by decide, _, _, rfl, rfl, rfl⟩

theorem test_witness_ResetClearsIndicesAndCounters :
    (ring 1 0 0 []).rspReady = true ∧ 1 ≤ (ring 1 0 0 []).capacity := by decide

/-- Four of the six bytes fit: `k` 3 is the last slot stored to, slot 2 is none. -/
theorem test_witness_PushStoresLongestFittingPrefix :
    IndexInv ring8Push ∧ ring8Push.rspReady = true ∧ 6 ≤ ring8Push.din.length ∧
    ring8Push.doutReady = true ∧ 3 < min 6 ring8Push.free ∧
    (∀ k, k < min 6 ring8Push.free → 2 ≠ ring8Push.pushSlot k) :=
  ⟨indexInv_ring8Push, by decide, by decide, by decide, by decide, by decide⟩

theorem test_witness_PopReturnsOldestBytes :
    IndexInv ringWrap ∧ ringWrap.rspReady = true ∧ ringWrap.doutReady = true :=
  ⟨indexInv_ringWrap, rfl, rfl⟩

theorem test_witness_ChecksumEqualsBitSerialForm :
    (ReadyInv ring8Push ∧ ring8Push.rspReady = true ∧ 6 ≤ ring8Push.din.length) ∧
    (ReadyInv (built []) ∧ (built []).rspReady = true ∧ 0 ≤ (built []).din.length ∧
      (built []).ready = true) :=
  ⟨⟨readyInv_ring8Push, by decide, by decide⟩,
   ⟨readyInv_built _, rspReady_built _, Nat.zero_le _, ready_built _⟩⟩

theorem test_witness_RdregAnswersRegisterMap :
    ringWrap.rspReady = true ∧
    (8, 1024#32) ∈ [(0, BitVec.ofNat 32 ringWrap.capacity), (1, BitVec.ofNat 32 ringWrap.head),
      (2, BitVec.ofNat 32 ringWrap.tail),
      (3, (if ringWrap.head = ringWrap.tail then 1#32 else 0#32) +
        (if (ringWrap.head + 1) % ringWrap.capacity = ringWrap.tail then 2#32 else 0#32)),
      (4, BitVec.ofNat 32 ringWrap.occupancy), (5, BitVec.ofNat 32 ringWrap.totalPushed),
      (6, BitVec.ofNat 32 ringWrap.totalPopped), (7, if ringWrap.ready then 1#32 else 0#32),
      (8, BitVec.ofNat 32 ringWrap.params.maxStorage)] := by decide

theorem test_witness_RdregCompletes : ringWrap.rspReady = true := by decide

theorem test_witness_RdregMaxStorageCompletes : ringWrap.rspReady = true := by decide

theorem test_witness_RegisterValuesFit : Inv ring8 := inv_ring8

theorem test_witness_RbStatusFields :
    IndexInv (ring 1 0 0 []) ∧ (ring 1 0 0 []).capacity = 1 ∧ IndexInv ringFull ∧ 2 ≤ 2 :=
  ⟨indexInv_ring1, rfl, indexInv_ringFull, le_rfl⟩

theorem test_witness_IncompleteFramesWait :
    (IndexInv ring8Push ∧ ring8Push.din.length < 7) ∧
    (let s : State := { ring8 with rspReady := false }
     IndexInv s ∧ s.rspReady = false) ∧
    (let s : State := { ring8 with rspReady := false, cmdWord := some 0x30000009#32 }
     s.rst = false ∧ s.cmdWord = some 0x30000009#32 ∧ s.rspReady = false ∧
       ∃ e, decode 0x30000009#32 = .error e) ∧
    (let s : State := { ring8 with doutReady := false }
     IndexInv s ∧ s.doutReady = false ∧ 0 < min 1 s.occupancy) :=
  ⟨⟨indexInv_ring8Push, by decide⟩, ⟨(indicesInRange_iff _).1 (by decide), rfl⟩,
   ⟨rfl, rfl, rfl, .registerNumber, by decide⟩,
   ⟨(indicesInRange_iff _).1 (by decide), rfl, by decide⟩⟩

theorem test_witness_TransfersStopOutsideIndexRange :
    ¬ IndexInv (ring 0 0 0 []) ∧ ¬ IndexInv (ring 8 8 0 []) :=
  ⟨fun h => absurd h.capacity_pos (by decide), fun h => absurd h.head_lt (by decide)⟩

theorem test_witness_OccupancyMeasuresQueue :
    IndexInv ringWrap ∧ 3 < ringWrap.occupancy ∧ IndexInv ringFull :=
  ⟨indexInv_ringWrap, by decide, indexInv_ringFull⟩

theorem test_witness_CapacityOneIsEmptyAndFull :
    (IndexInv (ring 1 0 0 []) ∧ (ring 1 0 0 []).capacity = 1) ∧
    (IndexInv (ring 2 1 0 []) ∧ 2 ≤ (ring 2 1 0 []).capacity) :=
  ⟨⟨indexInv_ring1, rfl⟩, ⟨indexInv_ring2, by decide⟩⟩

/-- One command of each kind that is answered in `ring8Push`. -/
theorem test_witness_RingRefinesBoundedQueue :
    ring8Push.params.Valid ∧ IndexInv ring8Push ∧
    ∀ i ∈ [Instr.configure 1024, .configure 1025, .reset, .push 6, .pop 3, .rdreg .rbCount,
        .rdregMaxStorage, .checksum 0],
      ∃ t r, exec i ring8Push = .next t ∧ t.rsp = ring8Push.rsp ++ [r] := by
  refine ⟨valid_default, indexInv_ring8Push, ?_⟩
  intro i hi
  simp only [List.mem_cons, List.not_mem_nil, or_false] at hi
  rcases hi with rfl | rfl | rfl | rfl | rfl | rfl | rfl | rfl
  case inr.inr.inr.inr.inr.inr.inr => exact ⟨_, plainResponse .ok 0x0000FFFF#32, rfl, by decide +kernel⟩
  all_goals exact ⟨_, _, rfl, rfl⟩

theorem idlePorts_ring (c h t : Nat) (m : List Host.Cell) : IdlePorts (ring c h t m) :=
  ⟨rfl, rfl, rfl, rfl, rfl, rfl⟩

theorem test_witness_FifoOrderAndRoundTrip :
    (IndexInv (ring 8 3 3 []) ∧ IdlePorts (ring 8 3 3 []) ∧ (ring 8 3 3 []).queue = [] ∧
      ∀ f ∈ [({ word := 0x12000002#32, payload := [0xA0#8, 0xA1#8] } : Frame),
          { word := 0x13000002#32, payload := [] }, { word := 0x10000401#32, payload := [] },
          { word := 0x30000009#32, payload := [] }, { word := 0x20000001#32, payload := [0x00#8] }],
        f.WellFormed ∧ KeepsIndices (ring 8 3 3 []).params.maxStorage f) ∧
    (IndexInv (ring 4 3 3 []) ∧ IdlePorts (ring 4 3 3 []) ∧ (ring 4 3 3 []).empty = true ∧
      [0xA0#8, 0xA1#8, 0xA2#8].length ≤ (ring 4 3 3 []).capacity - 1 ∧
      [0xA0#8, 0xA1#8, 0xA2#8].length < 2 ^ 24) := by
  refine ⟨⟨(indicesInRange_iff _).1 (by decide), idlePorts_ring _ _ _ _, by decide, ?_⟩,
    ⟨(indicesInRange_iff _).1 (by decide), idlePorts_ring _ _ _ _, by decide, by decide, by decide⟩⟩
  intro f hf
  simp only [List.mem_cons, List.not_mem_nil, or_false] at hf
  rcases hf with rfl | rfl | rfl | rfl | rfl <;> refine ⟨by decide, by decide, fun c hc => ?_⟩
  · exact absurd hc (by rw [show decode 0x12000002#32 = .ok (.push 2) from by decide]; simp)
  · exact absurd hc (by rw [show decode 0x13000002#32 = .ok (.pop 2) from by decide]; simp)
  · rw [show decode 0x10000401#32 = .ok (.configure 1025) from by decide] at hc
    cases hc
    exact .inr (by decide)
  · exact absurd hc (by rw [show decode 0x30000009#32 = .error .registerNumber from by decide]; simp)
  · exact absurd hc (by rw [show decode 0x20000001#32 = .ok (.checksum 1) from by decide]; simp)

/-- Two bytes fit whole; of the next four only two do. -/
theorem test_witness_PushInTwoPartsIsOnePush :
    IndexInv ring8Push ∧ ring8Push.rspReady = true ∧ 2 + 4 ≤ ring8Push.din.length :=
  ⟨indexInv_ring8Push, by decide, by decide⟩

theorem test_witness_PopInTwoPartsIsOnePop :
    IndexInv ringWrap ∧ ringWrap.rspReady = true ∧ ringWrap.doutReady = true :=
  ⟨indexInv_ringWrap, rfl, rfl⟩

theorem test_witness_TransfersThatMoveNothing :
    (IndexInv ringFull ∧ CounterInv ringFull ∧ ringFull.rspReady = true ∧ 0 < 1 ∧ 1 ≤ ringFull.din.length ∧
      ringFull.full = true) ∧
    (IndexInv (ring 1 0 0 []) ∧ CounterInv (ring 1 0 0 []) ∧ (ring 1 0 0 []).rspReady = true ∧ 0 < 1 ∧
      (ring 1 0 0 []).empty = true) :=
  ⟨⟨indexInv_ringFull, ⟨by decide, by decide⟩, by decide, by decide, by decide, by decide⟩,
   ⟨indexInv_ring1, ⟨by decide, by decide⟩, by decide, by decide, by decide⟩⟩

theorem test_witness_UsableCapacityIsOneLess :
    ring8Push.rspReady = true ∧ 1 ≤ 7 ∧ 7 ≤ ring8Push.params.maxStorage ∧ 6 ≤ ring8Push.din.length := by decide

theorem conserved_ring8Push : Conserved ring8Push := by
  show ring8Push.counterDiff = ring8Push.occupancy
  decide

theorem test_witness_ConservationLaw :
    (ring8Push.params.Valid ∧ IndexInv ring8Push ∧ Conserved ring8Push ∧
      (∃ t, exec (.push 6) ring8Push = .next t) ∧
      (∀ c, Instr.push 6 = .configure c → c = 0 ∨ ring8Push.params.maxStorage < c ∨ ring8Push.empty = true) ∧
      Instr.push 6 ≠ .reset) ∧
    (ring8Push.rspReady = true ∧ ∃ t, exec .reset ring8Push = .next t) ∧
    (1 ≤ 1 ∧ 1 ≤ ring8Push.params.maxStorage ∧ ∃ t, exec (.configure 1) ring8Push = .next t) :=
  ⟨⟨valid_default, indexInv_ring8Push, conserved_ring8Push, ⟨_, rfl⟩, fun _ h => (nomatch h),
    fun h => (nomatch h)⟩, ⟨rfl, _, rfl⟩, ⟨le_rfl, by decide, _, rfl⟩⟩

theorem test_witness_TableBuiltOnceByChecksum :
    (ring8Push.ready = false ∧ ring8Push.rspReady = true ∧ 0 ≤ ring8Push.din.length) ∧
    ((built []).ready = true ∧ ∃ t, exec (.checksum 0) (built []) = .next t) ∧
    ((∃ t, exec .reset (built []) = .next t) ∧ ∀ len, Instr.reset ≠ .checksum len) :=
  ⟨⟨rfl, rfl, Nat.zero_le _⟩, ⟨ready_built _, _, rfl⟩, ⟨_, rfl⟩, fun _ h => (nomatch h)⟩

/-- A block with a built table and one without, of two builds, with the same first payload bytes. -/
theorem test_witness_ChecksumDependsOnPayloadOnly :
    let s' : State := { ring8Push with params := tinyParams }
    ReadyInv (built [0xA0#8]) ∧ ReadyInv s' ∧ (built [0xA0#8]).rspReady = true ∧ s'.rspReady = true ∧
      1 ≤ (built [0xA0#8]).din.length ∧ 1 ≤ s'.din.length ∧ (built [0xA0#8]).din.take 1 = s'.din.take 1 :=
  ⟨readyInv_built _, readyInv_of_not_ready rfl, rspReady_built _, rfl, by rw [din_built]; decide, by decide,
   by rw [din_built]; decide⟩

theorem test_witness_PublishedCheckValue :
    ReadyInv (built checkMessage) ∧ (built checkMessage).rspReady = true ∧
      (built checkMessage).din.take 9 = checkMessage ∧ (built checkMessage).ready = true :=
  ⟨readyInv_built _, rspReady_built _, by rw [din_built]; decide, ready_built _⟩

theorem test_witness_CommandsStayInTheirUnit :
    (∃ t, exec (.push 6) ring8Push = .next t) ∧ isRb (.push 6) = true ∧
    (∃ t, exec (.checksum 6) ring8Push = .next t) ∧ isRb (.checksum 6) = false :=
  ⟨⟨_, rfl⟩, rfl, ⟨_, rfl⟩, rfl⟩

/-- A push changes `storage`, `head` and `total_pushed`; a pop `tail` and `total_popped`; a configure
`capacity`; the first checksum `ready`. -/
theorem test_witness_WhoWritesEachRegister :
    (∃ t, exec (.push 6) ring8Push = .next t ∧ t.storage ≠ ring8Push.storage ∧ t.head ≠ ring8Push.head ∧
      t.totalPushed ≠ ring8Push.totalPushed) ∧
    (∃ t, exec (.pop 1) ring8Push = .next t ∧ t.tail ≠ ring8Push.tail ∧
      t.totalPopped ≠ ring8Push.totalPopped) ∧
    (∃ t, exec (.configure 1) ring8Push = .next t ∧ t.capacity ≠ ring8Push.capacity) ∧
    (∃ t, exec (.checksum 0) ring8Push = .next t ∧ t.ready ≠ ring8Push.ready) :=
  ⟨⟨_, rfl, by decide, by decide, by decide⟩, ⟨_, rfl, by decide, by decide⟩, ⟨_, rfl, by decide⟩,
   ⟨_, rfl, by decide +kernel⟩⟩

theorem test_witness_SlotsAboveCapacityKept :
    (∃ t, exec (.push 6) ring8Push = .next t) ∧ ring8Push.capacity ≤ 8 ∧
    (∃ t, exec (.pop 1) ring8Push = .next t) ∧ ∀ len, Instr.pop 1 ≠ .push len :=
  ⟨⟨_, rfl⟩, by decide, ⟨_, rfl⟩, fun _ h => (nomatch h)⟩

theorem test_witness_RbCommandAndChecksumCommute :
    isRb (.push 2) = true ∧ IndexInv ring8 ∧ ring8.rspReady = true ∧ ring8.doutReady = true ∧
    [0xA0#8, 0xA1#8].length = payloadBytes (.push 2) :=
  ⟨rfl, indexInv_ring8, rfl, rfl, rfl⟩

theorem test_witness_RdregIsInvisibleToOthers :
    ∃ a b c x, (Instr.rdreg .rbCount = .rdregMaxStorage ∨ ∃ r, Instr.rdreg .rbCount = .rdreg r) ∧
      ring8.rspReady = true ∧ exec (.rdreg .rbCount) ring8 = .next a ∧ exec (.pop 2) a = .next b ∧
      exec (.pop 2) ring8 = .next c ∧ c.rsp = ring8.rsp ++ [x] :=
  ⟨_, _, _, _, .inr ⟨_, rfl⟩, rfl, rfl, rfl, rfl, rfl⟩

theorem test_witness_OneResponsePerCommand :
    (IndexInv ring8Push ∧ HostServes (.push 6) ring8Push) ∧
    (∃ t r, exec (.configure 0) ring8Push = .next t ∧ t.rsp = ring8Push.rsp ++ [r] ∧
      r.status = .invalidCapacity) :=
  ⟨⟨indexInv_ring8Push, by decide, rfl, rfl⟩, _, _, rfl, rfl, rfl⟩

theorem test_witness_TruncationEventOnlyForPush :
    (∃ t r, exec (.push 6) ring8Push = .next t ∧ t.rsp = ring8Push.rsp ++ [r] ∧
      r.status = .partialTransfer) ∧
    (∃ t r, exec (.pop 8) ring8Push = .next t ∧ t.rsp = ring8Push.rsp ++ [r]) ∧
    (∃ r, (illegalCommand ring8Push).rsp = ring8Push.rsp ++ [r]) :=
  ⟨⟨_, _, rfl, rfl, rfl⟩, ⟨_, _, rfl, rfl⟩, _, rfl⟩

theorem test_witness_StepKeepsInvariant : Inv ring8 ∧ ∃ t, step ring8 = .next t := ⟨inv_ring8, _, rfl⟩

theorem test_witness_IndexInvariantKept :
    (IndexInv ring8Push ∧ ∃ t, exec (.push 6) ring8Push = .next t) ∧
    (let s : State := ring 0 5 9 []
     s.rspReady = true ∧ 1 ≤ 1024 ∧ 1024 ≤ s.params.maxStorage ∧ ∃ t, exec (.configure 1024) s = .next t) ∧
    (let s : State := ring 1 5 9 []
     s.rspReady = true ∧ 1 ≤ s.capacity ∧ s.capacity ≤ s.params.maxStorage ∧ ∃ t, exec .reset s = .next t) ∧
    ({ ring8 with params := hugeParams } : State).params.Valid :=
  ⟨⟨indexInv_ring8Push, _, rfl⟩, ⟨rfl, by decide, by decide, _, rfl⟩, ⟨rfl, by decide, by decide, _, rfl⟩,
   valid_hugeParams⟩

theorem test_witness_NoStepStops : IndexInv ring8Push := indexInv_ring8Push

/-- Two blocks that differ in a slot that is not queued and in the unbuilt table. -/
theorem test_witness_StaleContentsNeverObserved :
    let s : State := ring8Push
    let s' : State := { ring8Push with storage := (0, 0xEE#8) :: ring8Push.storage, table := [(7, 0x1234#16)] }
    IndexInv s ∧ SameVisible s s' ∧ (∃ t, step s = .next t) :=
  ⟨indexInv_ring8Push, ⟨rfl, by decide, fun h => (nomatch h)⟩, _, rfl⟩

/-- A push that lacks its last byte, one that has all six of which four fit, and a pop of three whose output is
not taken. -/
theorem test_witness_OutputLevelsByProgress :
    (({ ring8Push with rst := true } : State).rst = true ∧ ring8.cmdWord = none) ∧
    (IndexInv ring8Push ∧ ring8Push.rst = false ∧ 6 < 2 ^ 24 ∧ 6 ≤ ring8Push.din.length ∧
      ring8Push.cmdWord = some (encode (.push 6))) ∧
    (let s : State := { ring8Push with din := [0xA0#8], cmdWord := some 0x12000002#32 }
     IndexInv s ∧ s.rst = false ∧ 2 < 2 ^ 24 ∧ s.din.length < 2 ∧ s.cmdWord = some (encode (.push 2))) ∧
    (let s : State := { ring8Push with cmdWord := some 0x20000007#32 }
     IndexInv s ∧ s.rst = false ∧ 7 < 2 ^ 24 ∧ s.din.length < 7 ∧ s.cmdWord = some (encode (.checksum 7))) ∧
    (let s : State := { ringWrap with doutReady := false, cmdWord := some 0x13000003#32 }
     IndexInv s ∧ s.rst = false ∧ 3 < 2 ^ 24 ∧ 0 < min 3 s.occupancy ∧ s.doutReady = false ∧
       s.cmdWord = some (encode (.pop 3))) ∧
    (let s : State := { ringWrap with doutReady := true, cmdWord := some 0x13000003#32 }
     IndexInv s ∧ s.rst = false ∧ s.cmdWord = some 0x13000003#32 ∧ payloadLen 0x13000003#32 ≤ s.din.length ∧
       (∀ n, decode 0x13000003#32 = .ok (.pop n) → s.doutReady = true ∨ min n s.occupancy = 0)) ∧
    (let s : State := { ringWrap with doutReady := false, cmdWord := some 0x13000000#32 }
     IndexInv s ∧ s.rst = false ∧ s.cmdWord = some 0x13000000#32 ∧ payloadLen 0x13000000#32 ≤ s.din.length ∧
       (∀ n, decode 0x13000000#32 = .ok (.pop n) → s.doutReady = true ∨ min n s.occupancy = 0)) :=
  ⟨⟨rfl, rfl⟩, ⟨indexInv_ring8Push, by decide⟩, ⟨(indicesInRange_iff _).1 (by decide), by decide⟩,
   ⟨(indicesInRange_iff _).1 (by decide), by decide⟩, ⟨(indicesInRange_iff _).1 (by decide), by decide⟩,
   ⟨(indicesInRange_iff _).1 (by decide), by decide, by decide, by decide, fun _ _ => .inl rfl⟩,
   ⟨(indicesInRange_iff _).1 (by decide), by decide, by decide, by decide, fun n h => by
     have hd : decode 0x13000000#32 = .ok (.pop 0) := by decide
     rw [hd] at h; cases h; exact .inr (Nat.zero_min _)⟩⟩

theorem test_witness_TransfersFollowHandshake :
    (∃ t, step { ring8 with cmdIn := [0x11000000#32] } = .next t) ∧
    IndexInv ring8Push ∧ ring8Push.rst = false ∧ ring8Push.cmdWord = some 0x12000006#32 :=
  ⟨⟨_, rfl⟩, indexInv_ring8Push, rfl, rfl⟩

theorem test_witness_AssembledFramesAreWellFormed :
    assembleLine "rb.push \"AB\"" = some { word := 0x12000002#32, payload := [0x41#8, 0x42#8] } := by
  decide +kernel

end Sys2Proof.Tests
end

section
/-! PROOFS. The scope of a command: an RB command writes the RB unit, CRC.CHECKSUM the CRC unit, SYS.RDREG
neither (rules R3, R100, R130, R151); and a register value fits a response (rules R9, R115, R152). -/

namespace Sys2Proof.Machine

/-! ## What the commands of each unit can write -/

/-- Everything an RB command can change: the six items of its unit, the payload it takes and its response
(rule R100). -/
theorem exec_eq_of_isRb {s t : State} {i : Instr} (h : exec i s = .next t) (hi : isRb i = true) :
    t = { s with
      storage := t.storage, capacity := t.capacity, head := t.head, tail := t.tail
      totalPushed := t.totalPushed, totalPopped := t.totalPopped
      din := t.din, cmdWord := t.cmdWord, rsp := t.rsp } := by
  cases i with
  | configure c =>
    obtain rfl | ⟨-, ⟨-, -, rfl⟩ | ⟨-, rfl⟩⟩ := exec_configure_cases h <;> rfl
  | reset =>
    obtain rfl | ⟨-, rfl⟩ := exec_reset_cases h <;> rfl
  | push n =>
    obtain ⟨-, rfl | ⟨-, -, rfl⟩⟩ := exec_push_cases h <;> rfl
  | pop n =>
    obtain ⟨-, rfl | ⟨-, rfl⟩⟩ := exec_pop_cases h <;> rfl
  | checksum | rdreg | rdregMaxStorage => cases hi

/-- Everything CRC.CHECKSUM and SYS.RDREG can change: the two items of the CRC unit, the payload taken and the
response (rules R130, R151). -/
theorem exec_eq_of_not_isRb {s t : State} {i : Instr} (h : exec i s = .next t) (hi : isRb i = false) :
    t = { s with
      table := t.table, ready := t.ready
      din := t.din, cmdWord := t.cmdWord, rsp := t.rsp } := by
  cases i with
  | configure | reset | push | pop => cases hi
  | checksum n =>
    obtain rfl | ⟨-, -, rfl⟩ := exec_checksum_cases h <;> rfl
  | rdreg r =>
    obtain rfl | ⟨-, rfl⟩ := exec_rdreg_cases h <;> rfl
  | rdregMaxStorage =>
    obtain rfl | ⟨-, rfl⟩ := exec_rdregMaxStorage_cases h <;> rfl

/-- Settles O39: each unit's commands change only the fields their frame equation names. -/
theorem commandsStayInTheirUnit : Obligations.CommandsStayInTheirUnit := by
  unfold Obligations.CommandsStayInTheirUnit
  intro s t i h
  cases hi : isRb i with
  | true =>
    rw [exec_eq_of_isRb h hi]
    exact ⟨fun _ => ⟨rfl, rfl⟩, nofun, rfl, rfl, rfl, rfl, rfl, rfl⟩
  | false =>
    rw [exec_eq_of_not_isRb h hi]
    exact ⟨nofun, fun _ => ⟨rfl, rfl, rfl, rfl, rfl, rfl⟩, rfl, rfl, rfl, rfl, rfl, rfl⟩

/-! ## Register values and the 32 bits of a response -/

theorem toNat_valueOf {n : Nat} (h : n < 2 ^ 32) : (valueOf n).toNat = n :=
  (BitVec.toNat_ofNat n 32).trans (Nat.mod_eq_of_lt h)

/-- Rule R9: `MAX_STORAGE` of a valid build leaves room above it in 32 bits. -/
theorem maxStorage_lt_of_valid {p : Config.Params} (h : p.Valid) : p.maxStorage < 2 ^ 32 := by
  obtain ⟨⟨-, hmax⟩, -, -⟩ := h
  omega

/-- Rule R9: a counter of `CNT_W` bits, at most 32, fits a response. -/
theorem lt_of_lt_two_pow_cntW {p : Config.Params} {n : Nat} (h : p.Valid) (hn : n < 2 ^ p.cntW) :
    n < 2 ^ 32 := by
  obtain ⟨-, ⟨-, hcnt⟩, -⟩ := h
  exact hn.trans_le (Nat.pow_le_pow_right two_pos hcnt)

/-- Settles O22: the capacity is at most `MAX_STORAGE`, the indices and the count are below the capacity, and
the counters hold at most 32 bits. -/
theorem registerValuesFit : Obligations.RegisterValuesFit := by
  unfold Obligations.RegisterValuesFit
  intro s ⟨hvalid, hindex, hcounters, _, _, _⟩
  have hmax : s.params.maxStorage < 2 ^ 32 := maxStorage_lt_of_valid hvalid
  have hcap : s.capacity < 2 ^ 32 := hindex.capacity_le.trans_lt hmax
  exact ⟨toNat_valueOf hcap, toNat_valueOf (hindex.head_lt.trans hcap),
    toNat_valueOf (hindex.tail_lt.trans hcap), toNat_valueOf ((occupancy_lt hindex).trans hcap),
    toNat_valueOf (lt_of_lt_two_pow_cntW hvalid hcounters.pushed_lt),
    toNat_valueOf (lt_of_lt_two_pow_cntW hvalid hcounters.popped_lt), toNat_valueOf hmax⟩

end Sys2Proof.Machine
end

section
/-! PROOFS. The ring buffer as a queue (rules R28, R29): its length, its bytes, and where the next byte goes. -/

namespace Sys2Proof.Machine

@[simp] theorem queue_length (s : State) : s.queue.length = s.occupancy := by
  simp [State.queue]

theorem queue_getElem? {s : State} {k : Nat} (hk : k < s.occupancy) :
    s.queue[k]? = some (s.slot (s.queueSlot k)) := by
  simp [State.queue, hk]

theorem occupancy_of_head_eq_tail {s : State} (h : s.head = s.tail) : s.occupancy = 0 := by
  simp [State.occupancy, h]

theorem queue_of_head_eq_tail {s : State} (h : s.head = s.tail) : s.queue = [] :=
  List.length_eq_zero_iff.1 ((queue_length s).trans (occupancy_of_head_eq_tail h))

/-- Rule R28: `occupancy` is `(head - tail) mod capacity`. -/
theorem occupancy_eq_emod {s : State} (h : IndexInv s) :
    (s.occupancy : Int) = ((s.head : Int) - s.tail) % s.capacity := by
  have hlt : (s.occupancy : Int) < s.capacity := Int.ofNat_lt.2 (occupancy_lt h)
  have hcongr : (s.occupancy : Int) ≡ s.head - s.tail [ZMOD s.capacity] := by
    rw [Int.modEq_comm, Int.modEq_iff_dvd]
    obtain ⟨-, -, hhead, htail⟩ := h
    unfold State.occupancy
    split
    · exact ⟨0, by omega⟩
    · exact ⟨1, by omega⟩
  rw [← hcongr.eq, Int.emod_eq_of_lt (by omega) hlt]

/-- The queued slots end at `head`. -/
theorem queueSlot_occupancy {s : State} (h : IndexInv s) : s.queueSlot s.occupancy = s.head := by
  have hocc := occupancy_lt h
  obtain ⟨-, -, hhead, htail⟩ := h
  rw [State.queueSlot, add_mod_eq htail hocc.le]
  unfold State.occupancy at hocc ⊢
  split <;> split <;> omega

/-- The occupancy is the one distance below `capacity` from `tail` to `head`. -/
theorem occupancy_eq_of_queueSlot {s : State} (h : IndexInv s) {n : Nat} (hn : n < s.capacity)
    (heq : s.queueSlot n = s.head) : s.occupancy = n :=
  add_mod_inj h.tail_lt (occupancy_lt h) hn ((queueSlot_occupancy h).trans heq.symm)

/-- The free slots begin where the queued ones end. -/
theorem queueSlot_occupancy_add {s : State} (h : IndexInv s) (k : Nat) :
    s.queueSlot (s.occupancy + k) = s.pushSlot k := by
  rw [State.pushSlot, ← queueSlot_occupancy h, State.queueSlot, State.queueSlot, Nat.mod_add_mod,
    Nat.add_assoc]

/-- No queued slot is one the next `free` bytes go to. -/
theorem queueSlot_ne_pushSlot {s : State} (h : IndexInv s) {j k : Nat} (hk : k < s.occupancy)
    (hj : j < s.free) : s.queueSlot k ≠ s.pushSlot j := by
  intro heq
  have hcap := free_add_occupancy h
  rw [← queueSlot_occupancy_add h] at heq
  have := add_mod_inj h.tail_lt (by omega) (by omega) heq
  omega

/-- Settles O26: each form of `occupancy` and each byte of the queue is a law of the ring buffer. -/
theorem occupancyMeasuresQueue : Obligations.OccupancyMeasuresQueue := by
  unfold Obligations.OccupancyMeasuresQueue
  intro s h
  have hlt := occupancy_lt h
  have hfree := free_add_occupancy h
  exact ⟨occupancy_eq_emod h, rfl, by omega, by omega, empty_iff_occupancy h, full_iff_occupancy h,
    queue_length s, fun _ hk => queue_getElem? hk⟩

/-- Settles O27: `empty` is occupancy 0 and `full` is occupancy `capacity - 1`, which are the same exactly at
capacity 1. -/
theorem capacityOneIsEmptyAndFull : Obligations.CapacityOneIsEmptyAndFull := by
  unfold Obligations.CapacityOneIsEmptyAndFull
  intro s h
  rw [empty_iff_occupancy h, full_iff_occupancy h]
  have hlt := occupancy_lt h
  obtain ⟨-, -, hhead, htail⟩ := h
  constructor
  · intro hone
    omega
  · rintro htwo ⟨hempty, hfull⟩
    omega

end Sys2Proof.Machine
end

section
/-! PROOFS. What a command that comes to its `respond` has done: the states RB.PUSH, RB.POP and CRC.CHECKSUM end in,
each tied to the model's loops; the relation `Completes`, which `exec` meets both ways; and what follows at once of
who writes which register (rules R20 to R25). -/

namespace Sys2Proof.Machine

/-! ## The states the transfers and the checksum end in -/

/-- The state an RB.PUSH of `n` bytes responds in (rules R106 to R108). -/
def State.pushed (s : State) (n : Nat) : State :=
  { s with
    storage := (pushLoop (s.din.take n) (s.consumePayload n) 0).1.storage
    head := s.pushSlot (min n s.free)
    totalPushed := truncN s.params.cntW (s.totalPushed + min n s.free)
    din := s.din.drop n }

/-- The state an RB.POP of at most `n` bytes responds in (rules R110 to R112). -/
def State.popped (s : State) (n : Nat) : State :=
  { s with
    tail := s.queueSlot (min n s.occupancy)
    totalPopped := truncN s.params.cntW (s.totalPopped + min n s.occupancy) }

/-- The state a CRC.CHECKSUM of `n` bytes responds in (rule R130). -/
def State.checksummed (s : State) (n : Nat) : State :=
  { s with
    table := (s.consumePayload n).ensureTable.table
    ready := true
    din := s.din.drop n }

/-- What the loop of RB.PUSH says of a payload of `n` bytes that is there: the count, and the state. -/
theorem pushLoop_payload {s : State} {n : Nat} (h : IndexInv s) (hl : n ≤ s.din.length) :
    (pushLoop (s.din.take n) (s.consumePayload n) 0).2 = min n s.free ∧
    (pushLoop (s.din.take n) (s.consumePayload n) 0).1.countPushed (min n s.free) = s.pushed n := by
  obtain ⟨hcount, hstate, -, -⟩ :=
    pushLoop_spec (s.din.take n) (s.consumePayload n) 0 (indexInv_consumePayload h n)
  have hfree : (s.consumePayload n).free = s.free := rfl
  rw [List.length_take, Nat.min_eq_left hl, hfree] at hcount hstate
  refine ⟨by omega, ?_⟩
  unfold State.pushed
  generalize (pushLoop (s.din.take n) (s.consumePayload n) 0).1 = t at *
  rw [hstate]
  rfl

/-- Each slot after RB.PUSH reads as its loop left it. -/
theorem slot_pushed {s : State} (h : IndexInv s) (n a : Nat) :
    (s.pushed n).slot a = (pushLoop (s.din.take n) (s.consumePayload n) 0).1.slot a := by
  obtain ⟨-, hstate, -, -⟩ :=
    pushLoop_spec (s.din.take n) (s.consumePayload n) 0 (indexInv_consumePayload h n)
  have hresets : (s.pushed n).resets = (pushLoop (s.din.take n) (s.consumePayload n) 0).1.resets := by
    rw [hstate]; rfl
  rw [State.slot, State.slot, hresets]
  rfl

/-- Rule R108: the bytes RB.PUSH stores are the first of its payload, at the slots from `head` on. -/
theorem slot_pushed_new {s : State} {n k : Nat} (h : IndexInv s) (hl : n ≤ s.din.length)
    (hk : k < min n s.free) : s.din[k]? = some ((s.pushed n).slot (s.pushSlot k)) := by
  obtain ⟨-, -, hnew, -⟩ :=
    pushLoop_spec (s.din.take n) (s.consumePayload n) 0 (indexInv_consumePayload h n)
  have hlen : (s.din.take n).length = n := by simp [hl]
  have hbyte := hnew k (by rw [hlen]; exact hk)
  rw [List.getElem?_take_of_lt (by omega)] at hbyte
  rw [slot_pushed h]
  exact hbyte

/-- Rule R108: RB.PUSH changes no slot but those it stores to. -/
theorem slot_pushed_other {s : State} {n a : Nat} (h : IndexInv s)
    (ha : ∀ k, k < s.free → a ≠ s.pushSlot k) : (s.pushed n).slot a = s.slot a := by
  obtain ⟨-, -, -, hother⟩ :=
    pushLoop_spec (s.din.take n) (s.consumePayload n) 0 (indexInv_consumePayload h n)
  rw [slot_pushed h]
  exact hother a fun k hk => ha k (hk.trans_le (Nat.min_le_right _ _))

/-- The bytes an RB.POP copies are the oldest queued. -/
theorem popLoop_out_eq_take {s : State} (h : IndexInv s) (n : Nat) :
    (popLoop n s []).2 = s.queue.take n := by
  rw [popLoop_out h, State.queue, ← List.map_take, List.take_range]

theorem popLoop_countPopped {s : State} (h : IndexInv s) (n : Nat) :
    (popLoop n s []).1.countPopped (popLoop n s []).2.length = s.popped n := by
  rw [popLoop_out_eq_take h, List.length_take, queue_length, popLoop_spec n s [] h]
  rfl

theorem ensureTable_eq_checksummed (s : State) (n : Nat) :
    (s.consumePayload n).ensureTable = s.checksummed n := ensureTable_eq _

/-! ## Commands that come to their `respond` -/

/-- `Completes s i u r`: the command `i`, begun in `s` with its payload there, comes to
`respond` in the state `u` with the response `r`. -/
inductive Completes (s : State) : Instr → State → Response → Prop
  | configure {c : Nat} (hc : 1 ≤ c ∧ c ≤ s.params.maxStorage) :
      Completes s (.configure c) (s.configured c) (plainResponse .ok 1#32)
  | configureOutOfRange {c : Nat} (hc : ¬ (1 ≤ c ∧ c ≤ s.params.maxStorage)) :
      Completes s (.configure c) s (plainResponse .invalidCapacity 0#32)
  | reset : Completes s .reset s.bufferReset (plainResponse .ok 0#32)
  | push {n : Nat} (hi : IndexInv s) (hl : n ≤ s.din.length) :
      Completes s (.push n) (s.pushed n) (pushResponse n (min n s.free))
  | pop {n : Nat} (hi : IndexInv s) :
      Completes s (.pop n) (s.popped n) (popResponse n (s.queue.take n))
  | checksum {n : Nat} (hl : n ≤ s.din.length) :
      Completes s (.checksum n) (s.checksummed n)
        (plainResponse .ok (zext32 ((s.checksummed n).crcLoop Config.crcInit (s.din.take n))))
  | rdreg {q : Reg} : Completes s (.rdreg q) s (plainResponse .ok (s.regValue q))
  | rdregMaxStorage :
      Completes s .rdregMaxStorage s (plainResponse .ok (valueOf s.params.maxStorage))

/-- A command that comes to its `respond` is answered by `exec` as `respond` says. -/
theorem Completes.exec_eq {s u : State} {i : Instr} {r : Response} (h : Completes s i u r) :
    exec i s = .next (respond s u r) := by
  cases h with
  | configure hc => simp [exec, execConfigure, configureCommand, State.capacityValid, hc]
  | configureOutOfRange hc => simp [exec, execConfigure, configureCommand, State.capacityValid, hc]
  | reset => rfl
  | push hi hl =>
    obtain ⟨hcount, hstate⟩ := pushLoop_payload hi hl
    rw [exec_push hi]
    simp only [pushCommand, State.payloadPresented, hl, decide_true, if_true, pushPayload, State.payload,
      hcount, hstate]
  | pop hi =>
    rw [exec_pop hi, popCommand, popLoop_countPopped hi, popLoop_out_eq_take hi]
  | checksum hl =>
    simp only [exec, execChecksum, checksumCommand, State.payloadPresented, hl, decide_true, if_true,
      checksumPayload, State.payload, ensureTable_eq_checksummed]
  | rdreg => rfl
  | rdregMaxStorage => rfl

theorem Completes.exec_of_takes {s u : State} {i : Instr} {r : Response} (h : Completes s i u r)
    (ht : s.takes r = true) : exec i s = .next (u.answered r) := by
  rw [h.exec_eq, respond_of_takes ht]

/-- A command that answers a next state lacks payload and waits, or comes to its `respond`. -/
theorem waits_or_completes {s t : State} {i : Instr} (h : exec i s = .next t) :
    (s.din.length < payloadBytes i ∧ t = s) ∨ ∃ u r, Completes s i u r ∧ t = respond s u r := by
  have done : ∀ {u r}, Completes s i u r →
      (s.din.length < payloadBytes i ∧ t = s) ∨ ∃ u r, Completes s i u r ∧ t = respond s u r :=
    fun hc => .inr ⟨_, _, hc, Host.Outcome.next.inj (h.symm.trans hc.exec_eq)⟩
  cases i with
  | configure c =>
    by_cases hc : 1 ≤ c ∧ c ≤ s.params.maxStorage
    · exact done (.configure hc)
    · exact done (.configureOutOfRange hc)
  | reset => exact done .reset
  | push n =>
    obtain ⟨hi, hcases⟩ := exec_push_cases h
    by_cases hl : n ≤ s.din.length
    · exact done (.push hi hl)
    · exact .inl ⟨not_le.1 hl, hcases.resolve_right fun ⟨_, hl', _⟩ => hl hl'⟩
  | pop n => exact done (.pop (exec_pop_cases h).1)
  | checksum n =>
    by_cases hl : n ≤ s.din.length
    · exact done (.checksum hl)
    · exact .inl ⟨not_le.1 hl, (exec_checksum_cases h).resolve_right fun ⟨_, hl', _⟩ => hl hl'⟩
  | rdreg q => exact done .rdreg
  | rdregMaxStorage => exact done .rdregMaxStorage

/-- A command that answers a next state left the old one, or was answered where it came to its `respond`. -/
theorem unchanged_or_answered {s t : State} {i : Instr} (h : exec i s = .next t) :
    t = s ∨ ∃ u r, Completes s i u r ∧ t = u.answered r := by
  obtain ⟨-, rfl⟩ | ⟨u, r, hc, rfl⟩ := waits_or_completes h
  · exact .inl rfl
  · obtain ⟨-, heq⟩ | ⟨-, heq⟩ := respond_cases s u r
    · exact .inr ⟨u, r, hc, heq⟩
    · exact .inl heq

theorem Completes.rsp_eq {s u : State} {i : Instr} {r : Response} (h : Completes s i u r) :
    u.rsp = s.rsp := by
  cases h <;> rfl

theorem Completes.params_eq {s u : State} {i : Instr} {r : Response} (h : Completes s i u r) :
    u.params = s.params := by
  cases h <;> rfl

/-- A command whose response `r` was transferred came to its `respond` with `r`. -/
theorem completes_of_rsp {s t : State} {i : Instr} {r : Response} (h : exec i s = .next t)
    (hr : t.rsp = s.rsp ++ [r]) : ∃ u, Completes s i u r ∧ t = u.answered r := by
  obtain rfl | ⟨u, x, hc, rfl⟩ := unchanged_or_answered h
  · simp at hr
  · rw [answered_rsp, hc.rsp_eq, List.append_cancel_left_eq, List.singleton_inj] at hr
    subst hr
    exact ⟨u, hc, rfl⟩

/-! ## Who writes each register -/

/-- Settles O40: a changed register leaves only the commands whose completed state writes it. -/
theorem whoWritesEachRegister : Obligations.WhoWritesEachRegister := by
  unfold Obligations.WhoWritesEachRegister
  intro s t i h
  obtain rfl | ⟨u, r, hc, rfl⟩ := unchanged_or_answered h
  · simp
  · cases hc with
    | configure | push | pop | checksum => simp [State.pushed, State.popped, State.checksummed]
    | configureOutOfRange | reset | rdreg | rdregMaxStorage => simp

/-- Settles O41: RB.PUSH stores to slots below `capacity`, and no other command writes `storage`. -/
theorem slotsAboveCapacityKept : Obligations.SlotsAboveCapacityKept := by
  unfold Obligations.SlotsAboveCapacityKept
  intro s t i h
  obtain rfl | ⟨u, r, hc, rfl⟩ := unchanged_or_answered h
  · exact ⟨fun _ _ => rfl, fun _ _ => rfl⟩
  · cases hc with
    | push hi =>
      refine ⟨fun a ha => slot_pushed_other hi fun k _ => ?_, fun hne => absurd rfl (hne _)⟩
      exact ((pushSlot_lt hi k).trans_le ha).ne'
    | configure | configureOutOfRange | reset | pop | checksum | rdreg | rdregMaxStorage =>
      exact ⟨fun _ _ => rfl, fun _ _ => rfl⟩

/-! ## The index invariant -/

theorem indexInv_configured {s : State} {c : Nat} (hc : 1 ≤ c ∧ c ≤ s.params.maxStorage) :
    IndexInv (s.configured c) := ⟨hc.1, hc.2, hc.1, hc.1⟩

theorem indexInv_bufferReset {s : State} (hpos : 1 ≤ s.capacity) (hle : s.capacity ≤ s.params.maxStorage) :
    IndexInv s.bufferReset := ⟨hpos, hle, hpos, hpos⟩

theorem indexInv_pushed {s : State} (h : IndexInv s) (n : Nat) : IndexInv (s.pushed n) :=
  ⟨h.capacity_pos, h.capacity_le, pushSlot_lt h _, h.tail_lt⟩

theorem indexInv_popped {s : State} (h : IndexInv s) (n : Nat) : IndexInv (s.popped n) :=
  ⟨h.capacity_pos, h.capacity_le, h.head_lt, queueSlot_lt h _⟩

theorem indexInv_answered {s : State} (h : IndexInv s) (r : Response) : IndexInv (s.answered r) :=
  ⟨h.capacity_pos, h.capacity_le, h.head_lt, h.tail_lt⟩

theorem indexInv_hardwareReset {s : State} (h : s.params.Valid) : IndexInv (hardwareReset s) := by
  obtain ⟨-, -, hpos, hle⟩ := h
  exact ⟨hpos, hle, hpos, hpos⟩

theorem Completes.indexInv {s u : State} {i : Instr} {r : Response} (hc : Completes s i u r)
    (h : IndexInv s) : IndexInv u := by
  cases hc with
  | configure hc => exact indexInv_configured hc
  | reset => exact indexInv_bufferReset h.capacity_pos h.capacity_le
  | push => exact indexInv_pushed h _
  | pop => exact indexInv_popped h _
  | checksum => exact ⟨h.capacity_pos, h.capacity_le, h.head_lt, h.tail_lt⟩
  | configureOutOfRange | rdreg | rdregMaxStorage => exact h

theorem indexInv_exec {s t : State} {i : Instr} (h : IndexInv s) (hexec : exec i s = .next t) :
    IndexInv t := by
  obtain rfl | ⟨u, r, hc, rfl⟩ := unchanged_or_answered hexec
  · exact h
  · exact indexInv_answered (hc.indexInv h) r

/-- Settles O48: every command completes in the index invariant; a successful RB.CONFIGURE, RB.RESET and hardware
reset set both indices to 0, below a capacity in range. -/
theorem indexInvariantKept : Obligations.IndexInvariantKept := by
  unfold Obligations.IndexInvariantKept
  refine ⟨fun s t i => indexInv_exec, fun s t c hr hpos hle hexec => ?_,
    fun s t hr hpos hle hexec => ?_, fun s => indexInv_hardwareReset⟩
  · rw [(Completes.configure ⟨hpos, hle⟩).exec_of_takes (by simpa using hr)] at hexec
    cases hexec
    exact indexInv_answered (indexInv_configured ⟨hpos, hle⟩) _
  · rw [Completes.reset.exec_of_takes (by simpa using hr)] at hexec
    cases hexec
    exact indexInv_answered (indexInv_bufferReset hpos hle) _

end Sys2Proof.Machine
end

section
/-! PROOFS. The ring buffer refines a bounded first-in first-out queue (rules R28, R106, R110), and the conservation
law of its counters (rule R36). -/

namespace Sys2Proof.Machine

/-! ## What a transfer does to the queue -/

theorem queueSlot_popped (s : State) (n k : Nat) :
    (s.popped n).queueSlot k = s.queueSlot (min n s.occupancy + k) := by
  simp only [State.queueSlot, State.popped, Nat.mod_add_mod, Nat.add_assoc]

/-- RB.PUSH raises the occupancy by the bytes it stores. -/
theorem occupancy_pushed {s : State} (h : IndexInv s) (n : Nat) :
    (s.pushed n).occupancy = s.occupancy + min n s.free := by
  have hfits : s.occupancy + min n s.free < s.capacity := by
    have hcap := free_add_occupancy h
    have hpos := h.capacity_pos
    omega
  exact occupancy_eq_of_queueSlot (indexInv_pushed h n) hfits (queueSlot_occupancy_add h _)

/-- RB.POP lowers the occupancy by the bytes it returns. -/
theorem occupancy_popped {s : State} (h : IndexInv s) (n : Nat) :
    (s.popped n).occupancy = s.occupancy - min n s.occupancy := by
  refine occupancy_eq_of_queueSlot (indexInv_popped h n) ((Nat.sub_le _ _).trans_lt (occupancy_lt h)) ?_
  rw [queueSlot_popped, Nat.add_sub_cancel' (Nat.min_le_right _ _)]
  exact queueSlot_occupancy h

/-- Rule R108: RB.PUSH appends the longest initial part of its payload that fits. -/
theorem queue_pushed {s : State} {n : Nat} (h : IndexInv s) (hl : n ≤ s.din.length) :
    (s.pushed n).queue = s.queue ++ (s.din.take n).take s.free := by
  refine List.ext_getElem (by simp [occupancy_pushed h, hl, Nat.min_comm]) fun k hk _ => ?_
  rw [queue_length] at hk
  rw [← Option.some_inj, ← List.getElem?_eq_getElem, ← List.getElem?_eq_getElem, queue_getElem? hk]
  rw [occupancy_pushed h] at hk
  obtain hold | ⟨j, rfl⟩ := (lt_or_ge k s.occupancy).imp_right Nat.exists_eq_add_of_le
  · rw [List.getElem?_append_left (by simpa using hold), queue_getElem? hold]
    exact congrArg some (slot_pushed_other h fun j hj => queueSlot_ne_pushSlot h hold hj)
  · have hj : j < min n s.free := by omega
    rw [List.getElem?_append_right (by simp), queue_length, Nat.add_sub_cancel_left, List.take_take,
      List.getElem?_take_of_lt (by omega), slot_pushed_new h hl hj, ← queueSlot_occupancy_add h]
    rfl

/-- Rule R112: RB.POP leaves the queue without its oldest bytes. -/
theorem queue_popped {s : State} (h : IndexInv s) (n : Nat) :
    (s.popped n).queue = s.queue.drop n := by
  refine List.ext_getElem (by simp [occupancy_popped h]; omega) fun k hk _ => ?_
  rw [queue_length] at hk
  rw [← Option.some_inj, ← List.getElem?_eq_getElem, ← List.getElem?_eq_getElem, queue_getElem? hk,
    queueSlot_popped]
  rw [occupancy_popped h] at hk
  rw [List.getElem?_drop, Nat.min_eq_left (by omega), queue_getElem? (by omega)]
  rfl

/-- Settles O28: each completed state holds the queue the bounded queue's operation gives. -/
theorem ringRefinesBoundedQueue : Obligations.RingRefinesBoundedQueue := by
  unfold Obligations.RingRefinesBoundedQueue
  intro s t i r hv h hexec hr
  obtain ⟨u, hc, rfl⟩ := completes_of_rsp hexec hr
  cases hc with
  | configure hc =>
    exact (if_pos hc).mpr ⟨queue_of_head_eq_tail rfl, rfl⟩
  | configureOutOfRange hc => exact (if_neg hc).mpr ⟨rfl, rfl⟩
  | reset => exact ⟨queue_of_head_eq_tail rfl, rfl⟩
  | @push n _ hl =>
    have hqueue := queue_pushed h hl
    refine ⟨?_, ?_, rfl⟩
    · rw [queue_length]
      exact hqueue
    · have hcount : (s.pushed n).queue.length - s.queue.length = min n s.free := by
        rw [queue_length, queue_length, occupancy_pushed h, Nat.add_sub_cancel_left]
      have hcap := free_add_occupancy h
      have hmax := h.capacity_le.trans_lt (maxStorage_lt_of_valid hv)
      exact (toNat_valueOf (by omega)).trans hcount.symm
  | pop => exact ⟨queue_popped h _, rfl, rfl⟩
  | checksum | rdreg | rdregMaxStorage => exact ⟨rfl, rfl⟩

/-! ## The conservation law -/

/-- What the counters, taken without truncation, have above the occupancy. -/
def State.surplus (s : State) : Int := s.totalPushed - s.totalPopped - s.occupancy

theorem counterDiff_cast (s : State) :
    (s.counterDiff : Int) = ((s.totalPushed : Int) - s.totalPopped) % 2 ^ s.params.cntW :=
  Int.toNat_of_nonneg (Int.emod_nonneg _ (by positivity))

theorem counterDiff_sub_occupancy_modEq (s : State) :
    (s.counterDiff : Int) - s.occupancy ≡ s.surplus [ZMOD 2 ^ s.params.cntW] := by
  rw [counterDiff_cast]
  exact (Int.mod_modEq _ _).sub_right _

theorem truncN_modEq (w n : Nat) : (truncN w n : Int) ≡ n [ZMOD 2 ^ w] := by
  rw [truncN, Int.natCast_mod, Nat.cast_pow, Nat.cast_ofNat]
  exact Int.mod_modEq _ _

/-- RB.PUSH raises `total_pushed` and the occupancy alike. -/
theorem surplus_pushed {s : State} (h : IndexInv s) (n : Nat) :
    (s.pushed n).surplus ≡ s.surplus [ZMOD 2 ^ s.params.cntW] := by
  have hcount : ((s.pushed n).totalPushed : Int) ≡ ↑(s.totalPushed + min n s.free)
      [ZMOD 2 ^ s.params.cntW] := truncN_modEq _ _
  have hsum : s.surplus =
      ↑(s.totalPushed + min n s.free) - s.totalPopped - (s.pushed n).occupancy := by
    rw [occupancy_pushed h, State.surplus]
    omega
  rw [hsum]
  exact (hcount.sub_right _).sub_right _

/-- RB.POP raises `total_popped` by what it takes off the occupancy. -/
theorem surplus_popped {s : State} (h : IndexInv s) (n : Nat) :
    (s.popped n).surplus ≡ s.surplus [ZMOD 2 ^ s.params.cntW] := by
  have hcount : ((s.popped n).totalPopped : Int) ≡ ↑(s.totalPopped + min n s.occupancy)
      [ZMOD 2 ^ s.params.cntW] := truncN_modEq _ _
  have hsum : s.surplus =
      s.totalPushed - ↑(s.totalPopped + min n s.occupancy) - (s.popped n).occupancy := by
    rw [occupancy_popped h, State.surplus]
    omega
  rw [hsum]
  exact (hcount.sub_left _).sub_right _

/-- No command but RB.RESET and a successful RB.CONFIGURE moves the counters apart from the queue. -/
theorem Completes.surplus_modEq {s u : State} {i : Instr} {r : Response} (hc : Completes s i u r)
    (h : IndexInv s) (hreset : i ≠ .reset)
    (hconfigure : ∀ c, i = .configure c → c = 0 ∨ s.params.maxStorage < c) :
    u.surplus ≡ s.surplus [ZMOD 2 ^ s.params.cntW] := by
  cases hc with
  | configure hc =>
    have := hconfigure _ rfl
    omega
  | reset => exact absurd rfl hreset
  | push => exact surplus_pushed h _
  | pop => exact surplus_popped h _
  | configureOutOfRange | checksum | rdreg | rdregMaxStorage => rfl

theorem counterDiff_sub_occupancy_kept {s t : State} {i : Instr} (h : IndexInv s)
    (hexec : exec i s = .next t) (hreset : i ≠ .reset)
    (hconfigure : ∀ c, i = .configure c → c = 0 ∨ s.params.maxStorage < c) :
    (t.counterDiff : Int) - t.occupancy ≡ s.counterDiff - s.occupancy [ZMOD 2 ^ s.params.cntW] := by
  obtain rfl | ⟨u, r, hc, rfl⟩ := unchanged_or_answered hexec
  · rfl
  · have hu := counterDiff_sub_occupancy_modEq u
    rw [hc.params_eq] at hu
    exact (hu.trans (hc.surplus_modEq h hreset hconfigure)).trans (counterDiff_sub_occupancy_modEq s).symm

/-- Rule R9: `CNT_W` bits hold every occupancy. -/
theorem occupancy_lt_two_pow_cntW {s : State} (hv : s.params.Valid) (h : IndexInv s) :
    s.occupancy < 2 ^ s.params.cntW := by
  obtain ⟨-, ⟨hcap, -⟩, -⟩ := hv
  calc s.occupancy < s.params.maxStorage := (occupancy_lt h).trans_le h.capacity_le
    _ < 2 ^ s.params.capW := Nat.lt_pow_succ_log_self one_lt_two _
    _ ≤ 2 ^ s.params.cntW := Nat.pow_le_pow_right two_pos hcap

/-- Both sides of the law are below `2^CNT_W`, so it holds where they agree modulo `2^CNT_W`. -/
theorem conserved_of_modEq {s : State} (hv : s.params.Valid) (h : IndexInv s)
    (hmod : (s.counterDiff : Int) - s.occupancy ≡ 0 [ZMOD 2 ^ s.params.cntW]) : Conserved s := by
  have hdiff : (s.counterDiff : Int) < 2 ^ s.params.cntW := by
    rw [counterDiff_cast]
    exact Int.emod_lt_of_pos _ (by positivity)
  have hocc : (s.occupancy : Int) < 2 ^ s.params.cntW := by
    exact_mod_cast occupancy_lt_two_pow_cntW hv h
  have heq : (s.counterDiff : Int) % 2 ^ s.params.cntW = s.occupancy % 2 ^ s.params.cntW := by
    simpa using (hmod.add_right s.occupancy).eq
  rw [Int.emod_eq_of_lt (by omega) hdiff, Int.emod_eq_of_lt (by omega) hocc] at heq
  exact Int.ofNat_inj.1 heq

/-- A state whose counters have moved with its queue keeps the law. -/
theorem conserved_of_surplus_modEq {s u : State} (hv : s.params.Valid) (hs : Conserved s)
    (hp : u.params = s.params) (hu : IndexInv u)
    (hmod : u.surplus ≡ s.surplus [ZMOD 2 ^ s.params.cntW]) : Conserved u := by
  refine conserved_of_modEq (hp ▸ hv) hu ?_
  have hzero : (s.counterDiff : Int) - s.occupancy = 0 := by
    rw [show s.counterDiff = s.occupancy from hs, sub_self]
  have hu' := counterDiff_sub_occupancy_modEq u
  rw [hp] at hu' ⊢
  exact hzero ▸ (hu'.trans hmod).trans (counterDiff_sub_occupancy_modEq s).symm

/-- The law holds of an empty buffer whose counters agree. -/
theorem conserved_of_cleared {s : State} (hindex : s.head = s.tail)
    (hcount : s.totalPushed = s.totalPopped) : Conserved s := by
  simp [Conserved, State.counterDiff, occupancy_of_head_eq_tail hindex, hcount]

theorem counterDiff_configured (s : State) (c : Nat) : (s.configured c).counterDiff = s.counterDiff := rfl

theorem occupancy_configured (s : State) (c : Nat) : (s.configured c).occupancy = 0 :=
  occupancy_of_head_eq_tail rfl

/-- A successful RB.CONFIGURE keeps the law exactly when it discards nothing. -/
theorem conserved_configured_iff {s : State} (h : IndexInv s) (hs : Conserved s) (c : Nat) :
    Conserved (s.configured c) ↔ s.empty = true := by
  rw [empty_iff_occupancy h, Conserved, counterDiff_configured, occupancy_configured, hs]

/-- The law survives every command but a successful RB.CONFIGURE of a non-empty buffer. -/
theorem conserved_exec {s t : State} {i : Instr} (hv : s.params.Valid) (h : IndexInv s)
    (hs : Conserved s) (hexec : exec i s = .next t)
    (hconfigure : ∀ c, i = .configure c → c = 0 ∨ s.params.maxStorage < c ∨ s.empty = true) :
    Conserved t := by
  obtain rfl | ⟨u, r, hc, rfl⟩ := unchanged_or_answered hexec
  · exact hs
  · cases hc with
    | @configure c hc =>
      have hempty : s.empty = true := by
        obtain hlow | hhigh | hempty := hconfigure c rfl
        · omega
        · omega
        · exact hempty
      exact (conserved_configured_iff h hs c).2 hempty
    | reset => exact conserved_of_cleared rfl rfl
    | push =>
      exact conserved_of_surplus_modEq hv hs rfl (indexInv_exec h hexec) (surplus_pushed h _)
    | pop =>
      exact conserved_of_surplus_modEq hv hs rfl (indexInv_exec h hexec) (surplus_popped h _)
    | configureOutOfRange | checksum | rdreg | rdregMaxStorage => exact hs

/-- Settles O34: the law modulo `2^CNT_W` is that the surplus is kept, which every command but an index reset does;
RB.RESET and hardware reset clear both sides, and a successful RB.CONFIGURE only the occupancy. -/
theorem conservationLaw : Obligations.ConservationLaw := by
  unfold Obligations.ConservationLaw
  refine ⟨fun s t i => conserved_exec, fun s t hr hexec => ?_, fun s => conserved_of_cleared rfl rfl,
    fun s t c h hs hr hpos hle hexec => ?_,
    fun s t i h hexec hreset hconfigure => counterDiff_sub_occupancy_kept h hexec hreset hconfigure⟩
  · rw [Completes.reset.exec_of_takes (by simpa using hr)] at hexec
    cases hexec
    exact conserved_of_cleared rfl rfl
  · rw [(Completes.configure ⟨hpos, hle⟩).exec_of_takes (by simpa using hr)] at hexec
    cases hexec
    have hocc := occupancy_configured s c
    refine ⟨hocc, ?_, conserved_configured_iff h hs c⟩
    calc (s.configured c).counterDiff = s.occupancy := hs
      _ = (s.configured c).occupancy + s.occupancy := by rw [hocc, Nat.zero_add]

end Sys2Proof.Machine
end

section
/-! PROOFS. A step keeps the invariant of the machine (rules R22 to R26, R32, R51, R52): each part of it through every
completed command, then hardware reset and the command channel. -/

namespace Sys2Proof.Machine

/-! ## What a step does, by what the block finds -/

theorem step_of_rst {s : State} (hr : s.rst = true) : step s = .next (hardwareReset s) := by
  simp [step, hr]

theorem step_of_idle {s : State} (hr : s.rst = false) (hw : s.cmdWord = none) (hq : s.cmdIn = []) :
    step s = .next s := by
  simp [step, hr, State.acceptCommand, hw, hq]

theorem step_of_presented {s : State} {w : Word} {rest : List Word} (hr : s.rst = false)
    (hw : s.cmdWord = none) (hq : s.cmdIn = w :: rest) :
    step s = serve w { s with cmdIn := rest, cmdWord := some w } := by
  simp [step, hr, State.acceptCommand, hw, hq]

theorem serve_of_decode {w : Word} {i : Instr} (hd : decode w = .ok i) (s : State) :
    serve w s = exec i s := by
  simp [serve, hd]

theorem serve_of_reserved {w : Word} {e : Reserved} (hd : decode w = .error e) (s : State) :
    serve w s = .next (illegalCommand s) := by
  simp [serve, hd]

/-! ## Each part of the invariant through a completed command -/

theorem Completes.counterInv {s u : State} {i : Instr} {r : Response} (hc : Completes s i u r)
    (h : CounterInv s) : CounterInv u := by
  obtain ⟨hpushed, hpopped⟩ := h
  cases hc with
  | reset => exact ⟨Nat.two_pow_pos _, Nat.two_pow_pos _⟩
  | push => exact ⟨Nat.mod_lt _ (Nat.two_pow_pos _), hpopped⟩
  | pop => exact ⟨hpushed, Nat.mod_lt _ (Nat.two_pow_pos _)⟩
  | configure | configureOutOfRange | checksum | rdreg | rdregMaxStorage => exact ⟨hpushed, hpopped⟩

theorem Completes.memoryInv {s u : State} {i : Instr} {r : Response} (hc : Completes s i u r)
    (h : MemoryInv s) : MemoryInv u := by
  obtain ⟨hstorage, htable⟩ := h
  cases hc with
  | @push n hi =>
    exact ⟨(pushLoop_storage _ _ 0 (indexInv_consumePayload hi n) hstorage).1, htable⟩
  | checksum => exact ⟨hstorage, wf_ensureTable htable⟩
  | configure | configureOutOfRange | reset | pop | rdreg | rdregMaxStorage => exact ⟨hstorage, htable⟩

theorem Completes.readyInv {s u : State} {i : Instr} {r : Response} (hc : Completes s i u r)
    (h : ReadyInv s) : ReadyInv u := by
  cases hc with
  | @checksum n => exact fun _ _ hk => read_ensureTable (s := s.consumePayload n) h hk
  | configure | configureOutOfRange | reset | push | pop | rdreg | rdregMaxStorage => exact h

theorem queuedWritten_of_head_eq_tail {s : State} (h : s.head = s.tail) : QueuedWritten s := by
  intro k hk
  rw [occupancy_of_head_eq_tail h] at hk
  exact absurd hk (Nat.not_lt_zero k)

/-- The slots queued after an RB.PUSH are the ones queued before, which it leaves written, and the ones it wrote. -/
theorem queuedWritten_pushed {s : State} {n : Nat} (hi : IndexInv s) (hl : n ≤ s.din.length)
    (hw : Memory.wf s.params.maxStorage s.storage = true) (h : QueuedWritten s) :
    QueuedWritten (s.pushed n) := by
  obtain ⟨-, hkept, hnew⟩ := pushLoop_storage (s.din.take n) _ 0 (indexInv_consumePayload hi n) hw
  have hlen : (s.din.take n).length = n := by simp [hl]
  intro k hk
  rw [occupancy_pushed hi] at hk
  obtain hold | ⟨j, rfl⟩ := (lt_or_ge k s.occupancy).imp_right Nat.exists_eq_add_of_le
  · exact hkept _ (h k hold)
  · have hslot : (s.pushed n).queueSlot (s.occupancy + j) = s.pushSlot j := queueSlot_occupancy_add hi j
    rw [hslot]
    exact hnew j (by rw [hlen]; exact Nat.lt_of_add_lt_add_left hk)

theorem queuedWritten_popped {s : State} (hi : IndexInv s) (h : QueuedWritten s) (n : Nat) :
    QueuedWritten (s.popped n) := by
  intro k hk
  rw [occupancy_popped hi] at hk
  rw [queueSlot_popped]
  exact h _ (by omega)

theorem Completes.queuedWritten {s u : State} {i : Instr} {r : Response} (hc : Completes s i u r)
    (hm : MemoryInv s) (h : QueuedWritten s) : QueuedWritten u := by
  cases hc with
  | configure | reset => exact queuedWritten_of_head_eq_tail rfl
  | push hi hl => exact queuedWritten_pushed hi hl hm.storage_wf h
  | pop hi => exact queuedWritten_popped hi h _
  | configureOutOfRange | checksum | rdreg | rdregMaxStorage => exact h

/-! ## The whole invariant -/

theorem Completes.inv {s u : State} {i : Instr} {r : Response} (hc : Completes s i u r) (h : Inv s) :
    Inv u where
  params_valid := hc.params_eq ▸ h.params_valid
  index := hc.indexInv h.index
  counters := hc.counterInv h.counters
  memory := hc.memoryInv h.memory
  ready_table := hc.readyInv h.ready_table
  queued_written := hc.queuedWritten h.memory h.queued_written

/-- The invariant does not speak of the command channel, the command in progress or the response log. -/
theorem Inv.withPorts {s : State} (h : Inv s) (cmdIn : List Word) (cmdWord : Option Word)
    (rsp : List Response) : Inv { s with cmdIn := cmdIn, cmdWord := cmdWord, rsp := rsp } := by
  obtain ⟨hvalid, ⟨hpos, hle, hhead, htail⟩, ⟨hpushed, hpopped⟩, ⟨hstorage, htable⟩, hready, hqueued⟩ := h
  exact ⟨hvalid, ⟨hpos, hle, hhead, htail⟩, ⟨hpushed, hpopped⟩, ⟨hstorage, htable⟩, hready, hqueued⟩

theorem Inv.answered {s : State} (h : Inv s) (r : Response) : Inv (s.answered r) :=
  h.withPorts s.cmdIn none (s.rsp ++ [r])

theorem Inv.hardwareReset {s : State} (h : Inv s) : Inv (hardwareReset s) where
  params_valid := h.params_valid
  index := indexInv_hardwareReset h.params_valid
  counters := ⟨Nat.two_pow_pos _, Nat.two_pow_pos _⟩
  memory := ⟨Memory.wf_nil _, Memory.wf_nil _⟩
  ready_table := readyInv_of_not_ready rfl
  queued_written := queuedWritten_of_head_eq_tail rfl

theorem Inv.exec {s t : State} {i : Instr} (h : Inv s) (hexec : exec i s = .next t) : Inv t := by
  obtain rfl | ⟨u, r, hc, rfl⟩ := unchanged_or_answered hexec
  · exact h
  · exact (hc.inv h).answered r

theorem Inv.illegalCommand {s : State} (h : Inv s) : Inv (illegalCommand s) := by
  obtain ⟨-, heq⟩ | ⟨-, heq⟩ := respond_cases s s (plainResponse .illegalCmd 0#32)
  · rw [Machine.illegalCommand, heq]
    exact h.answered _
  · rw [Machine.illegalCommand, heq]
    exact h

theorem Inv.serve {s t : State} {w : Word} (h : Inv s) (hserve : serve w s = .next t) : Inv t := by
  cases hd : decode w with
  | ok i => exact h.exec (serve_of_decode hd s ▸ hserve)
  | error e =>
    rw [serve_of_reserved hd] at hserve
    cases hserve
    exact h.illegalCommand

/-- Settles O47: hardware reset, accepting a word and serving it each keep the invariant. -/
theorem stepKeepsInvariant : Obligations.StepKeepsInvariant := by
  unfold Obligations.StepKeepsInvariant
  intro s t h hstep
  cases hr : s.rst with
  | true =>
    rw [step_of_rst hr] at hstep
    cases hstep
    exact h.hardwareReset
  | false =>
    cases hw : s.cmdWord with
    | some w => exact h.serve (step_of_inProgress hr hw ▸ hstep)
    | none =>
      cases hq : s.cmdIn with
      | nil =>
        rw [step_of_idle hr hw hq] at hstep
        cases hstep
        exact h
      | cons w rest =>
        rw [step_of_presented hr hw hq] at hstep
        exact (h.withPorts rest (some w) s.rsp).serve hstep

end Sys2Proof.Machine
end

section
/-! PROOFS. Stale contents are never observed (rules R26, R33, R35): two blocks that agree on what is visible come to
the same responses in states that agree again, command by command and then step by step. -/

namespace Sys2Proof.Machine

/-! ## What is visible -/

/-- A block that agrees with `s` differs from it in its memories and its reset count alone. -/
theorem SameVisible.exists_memories {s s' : State} (h : SameVisible s s') :
    ∃ m tbl n, s' = { s with storage := m, table := tbl, resets := n } :=
  ⟨_, _, _, h.registers⟩

theorem SameVisible.ready_eq {s s' : State} (h : SameVisible s s') : s'.ready = s.ready := by
  rw [h.registers]

theorem SameVisible.rst_eq {s s' : State} (h : SameVisible s s') : s'.rst = s.rst := by
  rw [h.registers]

theorem SameVisible.cmdIn_eq {s s' : State} (h : SameVisible s s') : s'.cmdIn = s.cmdIn := by
  rw [h.registers]

theorem SameVisible.din_eq {s s' : State} (h : SameVisible s s') : s'.din = s.din := by
  rw [h.registers]

theorem SameVisible.cmdWord_eq {s s' : State} (h : SameVisible s s') : s'.cmdWord = s.cmdWord := by
  rw [h.registers]

theorem SameVisible.indexInv {s s' : State} (h : SameVisible s s') (hi : IndexInv s) : IndexInv s' := by
  obtain ⟨m, tbl, n, rfl⟩ := h.exists_memories
  exact ⟨hi.capacity_pos, hi.capacity_le, hi.head_lt, hi.tail_lt⟩

theorem SameVisible.takes {s s' : State} (h : SameVisible s s') (r : Response) :
    s'.takes r = s.takes r := by
  obtain ⟨m, tbl, n, rfl⟩ := h.exists_memories
  rfl

theorem SameVisible.withCommand {s s' : State} (h : SameVisible s s') (cmdIn : List Word)
    (cmdWord : Option Word) :
    SameVisible { s with cmdIn := cmdIn, cmdWord := cmdWord } { s' with cmdIn := cmdIn, cmdWord := cmdWord } := by
  obtain ⟨m, tbl, n, rfl⟩ := h.exists_memories
  exact ⟨rfl, h.queue, h.table⟩

theorem SameVisible.answered {s s' : State} (h : SameVisible s s') (r : Response) :
    SameVisible (s.answered r) (s'.answered r) := by
  obtain ⟨m, tbl, n, rfl⟩ := h.exists_memories
  exact ⟨rfl, h.queue, h.table⟩

theorem SameVisible.respond {s s' u u' : State} (hs : SameVisible s s') (hu : SameVisible u u')
    (r : Response) : SameVisible (respond s u r) (respond s' u' r) := by
  cases ht : s.takes r with
  | true =>
    rw [respond_of_takes ht, respond_of_takes ((hs.takes r).trans ht)]
    exact hu.answered r
  | false =>
    rw [respond_of_not_takes ht, respond_of_not_takes ((hs.takes r).trans ht)]
    exact hs

theorem SameVisible.hardwareReset {s s' : State} (h : SameVisible s s') :
    SameVisible (hardwareReset s) (hardwareReset s') where
  registers := by
    obtain ⟨m, tbl, n, rfl⟩ := h.exists_memories
    rfl
  queue := (queue_of_head_eq_tail rfl).trans (queue_of_head_eq_tail rfl).symm
  table := nofun

/-! ## The table -/

/-- The accumulation looks up the entries of the table and no other (rule R133). -/
theorem crcLoop_congr_of_tableN {s t : State} (h : ∀ i, i < Config.tableN → s.tblRead i = t.tblRead i)
    (c : Half) (bs : List Byte) : s.crcLoop c bs = t.crcLoop c bs := by
  induction bs generalizing c with
  | nil => rfl
  | cons b bs ih =>
    have hentry := h (crcIndex c b).toNat (crcIndex c b).isLt
    rw [State.crcLoop, State.crcLoop, ih, State.crcStep, State.crcStep, hentry]

/-- A CRC.CHECKSUM that finds no table leaves the entries of rule R131. -/
theorem tblRead_checksummed_of_not_ready {s : State} (h : s.ready = false) (n : Nat) {i : Nat}
    (hi : i < Config.tableN) : (s.checksummed n).tblRead i = tableEntry i := by
  have hread : Memory.read (s.checksummed n).table i = some (tableEntry i) :=
    read_ensureTable (s := s.consumePayload n) (readyInv_of_not_ready h) hi
  rw [State.tblRead, hread, Option.getD_some]

theorem tblRead_checksummed_of_ready {s : State} (h : s.ready = true) (n i : Nat) :
    (s.checksummed n).tblRead i = s.tblRead i := by
  rw [← ensureTable_eq_checksummed, ensureTable_of_ready (s := s.consumePayload n) h]
  rfl

theorem SameVisible.tblRead_checksummed {s s' : State} (h : SameVisible s s') (n : Nat) {i : Nat}
    (hi : i < Config.tableN) : (s'.checksummed n).tblRead i = (s.checksummed n).tblRead i := by
  cases hr : s.ready with
  | true =>
    rw [tblRead_checksummed_of_ready hr, tblRead_checksummed_of_ready (h.ready_eq.trans hr), h.table hr i hi]
  | false =>
    rw [tblRead_checksummed_of_not_ready hr n hi, tblRead_checksummed_of_not_ready (h.ready_eq.trans hr) n hi]

/-! ## A command -/

/-- A command comes to the same response in two blocks that agree on what is visible, and they agree there. -/
theorem SameVisible.completes {s s' u : State} {i : Instr} {r : Response} (h : SameVisible s s')
    (hc : Completes s i u r) : ∃ u', Completes s' i u' r ∧ SameVisible u u' := by
  cases hc with
  | configure hc =>
    obtain ⟨m, tbl, n, rfl⟩ := h.exists_memories
    exact ⟨_, .configure hc, rfl, (queue_of_head_eq_tail rfl).trans (queue_of_head_eq_tail rfl).symm, h.table⟩
  | configureOutOfRange hc =>
    obtain ⟨m, tbl, n, rfl⟩ := h.exists_memories
    exact ⟨_, .configureOutOfRange hc, h⟩
  | reset =>
    obtain ⟨m, tbl, n, rfl⟩ := h.exists_memories
    exact ⟨_, .reset, rfl, (queue_of_head_eq_tail rfl).trans (queue_of_head_eq_tail rfl).symm, h.table⟩
  | @push n hi hl =>
    have hi' := h.indexInv hi
    obtain ⟨m, tbl, k, rfl⟩ := h.exists_memories
    refine ⟨_, .push hi' hl, rfl, ?_, h.table⟩
    rw [queue_pushed hi' hl, queue_pushed hi hl, h.queue]
    rfl
  | @pop n hi =>
    have hi' := h.indexInv hi
    have hc' := Completes.pop (n := n) hi'
    rw [h.queue] at hc'
    refine ⟨_, hc', ?_, ?_, ?_⟩
    · obtain ⟨m, tbl, k, rfl⟩ := h.exists_memories
      rfl
    · rw [queue_popped hi', queue_popped hi, h.queue]
    · exact h.table
  | @checksum n hl =>
    have htable := fun i hi => h.tblRead_checksummed n (i := i) hi
    have hvalue := crcLoop_congr_of_tableN htable Config.crcInit (s.din.take n)
    rw [← hvalue]
    obtain ⟨m, tbl, k, rfl⟩ := h.exists_memories
    exact ⟨_, .checksum hl, rfl, h.queue, fun _ => htable⟩
  | rdreg =>
    obtain ⟨m, tbl, n, rfl⟩ := h.exists_memories
    exact ⟨_, .rdreg, h⟩
  | rdregMaxStorage =>
    obtain ⟨m, tbl, n, rfl⟩ := h.exists_memories
    exact ⟨_, .rdregMaxStorage, h⟩

theorem SameVisible.exec {s s' t : State} {i : Instr} (h : SameVisible s s') (hi : IndexInv s)
    (hexec : exec i s = .next t) : ∃ t', exec i s' = .next t' ∧ SameVisible t t' := by
  obtain ⟨hshort, rfl⟩ | ⟨u, r, hc, rfl⟩ := waits_or_completes hexec
  · exact ⟨s', exec_waits (h.indexInv hi) (h.din_eq ▸ hshort), h⟩
  · obtain ⟨u', hc', hu⟩ := h.completes hc
    exact ⟨_, hc'.exec_eq, h.respond hu r⟩

/-! ## A step -/

theorem SameVisible.serve {s s' t : State} {w : Word} (h : SameVisible s s') (hi : IndexInv s)
    (hserve : serve w s = .next t) : ∃ t', serve w s' = .next t' ∧ SameVisible t t' := by
  cases hd : decode w with
  | ok i =>
    rw [serve_of_decode hd] at hserve ⊢
    exact h.exec hi hserve
  | error e =>
    rw [serve_of_reserved hd] at hserve ⊢
    cases hserve
    exact ⟨_, rfl, h.respond h _⟩

/-- Settles O50: the two blocks find the same on their ports, and take the same of the four steps. -/
theorem staleContentsNeverObserved : Obligations.StaleContentsNeverObserved := by
  unfold Obligations.StaleContentsNeverObserved
  intro s s' t hi h hstep
  cases hr : s.rst with
  | true =>
    rw [step_of_rst hr] at hstep
    cases hstep
    exact ⟨_, step_of_rst (h.rst_eq.trans hr), h.hardwareReset⟩
  | false =>
    cases hw : s.cmdWord with
    | some w =>
      rw [step_of_inProgress hr hw] at hstep
      rw [step_of_inProgress (h.rst_eq.trans hr) (h.cmdWord_eq.trans hw)]
      exact h.serve hi hstep
    | none =>
      cases hq : s.cmdIn with
      | nil =>
        rw [step_of_idle hr hw hq] at hstep
        cases hstep
        exact ⟨s', step_of_idle (h.rst_eq.trans hr) (h.cmdWord_eq.trans hw) (h.cmdIn_eq.trans hq), h⟩
      | cons w rest =>
        rw [step_of_presented hr hw hq] at hstep
        rw [step_of_presented (h.rst_eq.trans hr) (h.cmdWord_eq.trans hw) (h.cmdIn_eq.trans hq)]
        have hi' : IndexInv { s with cmdIn := rest, cmdWord := some w } :=
          ⟨hi.capacity_pos, hi.capacity_le, hi.head_lt, hi.tail_lt⟩
        exact (h.withCommand rest (some w)).serve hi' hstep

end Sys2Proof.Machine
end

section
/-! PROOFS. A step runs the command its word decodes to (rules R58, R81, R86). -/

namespace Sys2Proof.Machine

/-- Settles O6: the step serves the word it accepts or has in progress, and serving it is `exec` of the command. -/
theorem stepRunsDecodedCommand : Obligations.StepRunsDecodedCommand := by
  unfold Obligations.StepRunsDecodedCommand
  intro s w i hr hd
  constructor
  · intro rest hw hq
    rw [step_of_presented hr hw hq, serve_of_decode hd]
  · intro hw
    rw [step_of_inProgress hr hw, serve_of_decode hd]

end Sys2Proof.Machine
end

section
/-! PROOFS. The command word (rules R71 to R74, R78, R79, R81): its two fields, and the relation `Decodes`, which is
the decoder read as a table: one row per command and one per reason to reject. -/

namespace Sys2Proof

/-! ## The fields of a command word -/

theorem argOf_lt (w : Word) : argOf w < 2 ^ 24 := (w.extractLsb' 0 24).isLt

/-- Rule R71: `op` is the bits 31 to 24. -/
theorem opOf_eq (w : Word) : opOf w = w.extractLsb' 24 8 :=
  BitVec.extractLsb'_append_extractLsb'_eq_extractLsb' rfl

@[simp] theorem opOf_commandWord (op : BitVec 8) (n : Nat) : opOf (commandWord op n) = op :=
  (opOf_eq _).trans BitVec.extractLsb'_append_eq_left

theorem argOf_commandWord (op : BitVec 8) {n : Nat} (h : n < 2 ^ 24) : argOf (commandWord op n) = n := by
  have hlow : (commandWord op n).extractLsb' 0 24 = BitVec.ofNat 24 n := BitVec.extractLsb'_append_eq_right
  rw [argOf, hlow, BitVec.toNat_ofNat, Nat.mod_eq_of_lt h]

/-- A command word is its two fields put together. -/
theorem commandWord_opOf_argOf (w : Word) : commandWord (opOf w) (argOf w) = w := by
  rw [commandWord, opOf_eq, argOf, BitVec.ofNat_toNat, BitVec.setWidth_eq]
  exact (BitVec.extractLsb'_append_extractLsb'_eq_extractLsb' rfl).trans BitVec.extractLsb'_eq_self

/-! ## The decoder as a table -/

theorem decodeRdreg_number (q : Reg) : decodeRdreg q.number = .ok (.rdreg q) := by
  cases q <;> rfl

theorem decodeRdreg_of_gt {n : Nat} (h : 8 < n) : decodeRdreg n = .error .registerNumber := by
  obtain ⟨k, rfl⟩ := Nat.exists_eq_add_of_le' h
  rfl

theorem Reg.number_lt (q : Reg) : q.number < 8 := by
  cases q <;> decide

/-- Rule R152: the registers 0 to 7 are `Reg`. -/
theorem Reg.exists_number_eq : ∀ {n : Nat}, n < 8 → ∃ q : Reg, q.number = n
  | 0, _ => ⟨.rbCapacity, rfl⟩
  | 1, _ => ⟨.rbHead, rfl⟩
  | 2, _ => ⟨.rbTail, rfl⟩
  | 3, _ => ⟨.rbStatus, rfl⟩
  | 4, _ => ⟨.rbCount, rfl⟩
  | 5, _ => ⟨.rbTotalPushed, rfl⟩
  | 6, _ => ⟨.rbTotalPopped, rfl⟩
  | 7, _ => ⟨.crcStatus, rfl⟩

/-- `Decodes w r`: a row of the decoding table (rules R72, R78, R79, R152) reads the word `w` as `r`. -/
inductive Decodes (w : Word) : Except Reserved Instr → Prop
  | configure {c : Nat} (hop : opOf w = opConfigure) (harg : argOf w = c) : Decodes w (.ok (.configure c))
  | reset (hop : opOf w = opReset) (harg : argOf w = 0) : Decodes w (.ok .reset)
  | push {n : Nat} (hop : opOf w = opPush) (harg : argOf w = n) : Decodes w (.ok (.push n))
  | pop {n : Nat} (hop : opOf w = opPop) (harg : argOf w = n) : Decodes w (.ok (.pop n))
  | checksum {n : Nat} (hop : opOf w = opChecksum) (harg : argOf w = n) : Decodes w (.ok (.checksum n))
  | rdreg {q : Reg} (hop : opOf w = opRdreg) (harg : argOf w = q.number) : Decodes w (.ok (.rdreg q))
  | rdregMaxStorage (hop : opOf w = opRdreg) (harg : argOf w = 8) : Decodes w (.ok .rdregMaxStorage)
  | resetOperand (hop : opOf w = opReset) (harg : argOf w ≠ 0) : Decodes w (.error .resetOperand)
  | registerNumber (hop : opOf w = opRdreg) (harg : 8 < argOf w) : Decodes w (.error .registerNumber)
  | opcode (hop : opOf w ∉ definedOpcodes) : Decodes w (.error .opcode)

/-- The decoder answers what a row of the table reads. -/
theorem Decodes.decode_eq {w : Word} {r : Except Reserved Instr} (h : Decodes w r) : decode w = r := by
  cases h with
  | configure hop harg | push hop harg | pop hop harg | checksum hop harg =>
    rw [decode, hop, harg]
    rfl
  | reset hop harg | resetOperand hop harg =>
    rw [decode, hop]
    simp [harg, opReset, opConfigure]
  | rdreg hop harg =>
    rw [decode, hop, harg]
    exact decodeRdreg_number _
  | rdregMaxStorage hop harg =>
    rw [decode, hop, harg]
    rfl
  | registerNumber hop harg =>
    rw [decode, hop]
    exact decodeRdreg_of_gt harg
  | opcode hop =>
    simp only [definedOpcodes, List.mem_cons, List.not_mem_nil, or_false, not_or] at hop
    simp [decode, hop]

/-- Every word has its row in the table. -/
theorem exists_decodes (w : Word) : ∃ r, Decodes w r := by
  by_cases hop : opOf w ∈ definedOpcodes
  · simp only [definedOpcodes, List.mem_cons, List.not_mem_nil, or_false] at hop
    obtain hop | hop | hop | hop | hop | hop := hop
    · exact ⟨_, .configure hop rfl⟩
    · by_cases harg : argOf w = 0
      · exact ⟨_, .reset hop harg⟩
      · exact ⟨_, .resetOperand hop harg⟩
    · exact ⟨_, .push hop rfl⟩
    · exact ⟨_, .pop hop rfl⟩
    · exact ⟨_, .checksum hop rfl⟩
    · obtain hlow | harg | hhigh := lt_trichotomy (argOf w) 8
      · obtain ⟨q, hq⟩ := Reg.exists_number_eq hlow
        exact ⟨_, .rdreg hop hq.symm⟩
      · exact ⟨_, .rdregMaxStorage hop harg⟩
      · exact ⟨_, .registerNumber hop hhigh⟩
  · exact ⟨_, .opcode hop⟩

/-- The decoder is the table. -/
theorem decode_eq_iff {w : Word} {r : Except Reserved Instr} : decode w = r ↔ Decodes w r := by
  refine ⟨?_, Decodes.decode_eq⟩
  rintro rfl
  obtain ⟨r, h⟩ := exists_decodes w
  rwa [h.decode_eq]

/-! ## Decoding and encoding -/

/-- Settles O1: the two fields of the encoded word are the opcode of the command's row and its operand. -/
theorem decodeOfEncodeIsIdentity : Obligations.DecodeOfEncodeIsIdentity := by
  unfold Obligations.DecodeOfEncodeIsIdentity
  intro i hwf
  rw [decode_eq_iff]
  cases i with
  | configure => exact .configure (opOf_commandWord _ _) (argOf_commandWord _ hwf)
  | reset => exact .reset (opOf_commandWord _ _) (argOf_commandWord _ (by omega))
  | push => exact .push (opOf_commandWord _ _) (argOf_commandWord _ hwf)
  | pop => exact .pop (opOf_commandWord _ _) (argOf_commandWord _ hwf)
  | checksum => exact .checksum (opOf_commandWord _ _) (argOf_commandWord _ hwf)
  | rdreg q => exact .rdreg (opOf_commandWord _ _) (argOf_commandWord _ (q.number_lt.trans (by omega)))
  | rdregMaxStorage => exact .rdregMaxStorage (opOf_commandWord _ _) (argOf_commandWord _ (by omega))

/-- Settles O2: the row of the table fixes both fields of the word, and the word is its fields put together. -/
theorem encodeOfDecodedIsSameWord : Obligations.EncodeOfDecodedIsSameWord := by
  unfold Obligations.EncodeOfDecodedIsSameWord
  intro w i hd
  have hword := commandWord_opOf_argOf w
  have hlt := argOf_lt w
  cases decode_eq_iff.1 hd with
  | configure hop harg | push hop harg | pop hop harg | checksum hop harg =>
    rw [hop, harg] at hword
    exact ⟨harg ▸ hlt, hword⟩
  | reset hop harg | rdreg hop harg | rdregMaxStorage hop harg =>
    rw [hop, harg] at hword
    exact ⟨trivial, hword⟩

/-- Settles O3: each reason to reject has one row of the table. -/
theorem reservedWordsByReason : Obligations.ReservedWordsByReason := by
  unfold Obligations.ReservedWordsByReason
  intro w
  simp only [decode_eq_iff]
  exact ⟨⟨fun | .opcode hop => hop, .opcode⟩,
    ⟨fun | .resetOperand hop harg => ⟨hop, harg⟩, fun ⟨hop, harg⟩ => .resetOperand hop harg⟩,
    ⟨fun | .registerNumber hop harg => ⟨hop, harg⟩, fun ⟨hop, harg⟩ => .registerNumber hop harg⟩⟩

/-- Settles O4: the twelve words, each by evaluation. -/
theorem sampleWordsDecode : Obligations.SampleWordsDecode := by
  unfold Obligations.SampleWordsDecode
  decide

end Sys2Proof

namespace Sys2Proof.Machine

/-- Settles O5: the two opcodes are RB.PUSH's and CRC.CHECKSUM's, whose rows take `arg` bytes. -/
theorem payloadLengthFixedByWord : Obligations.PayloadLengthFixedByWord := by
  unfold Obligations.PayloadLengthFixedByWord
  refine ⟨fun w => rfl, fun w i hd => ?_⟩
  cases decode_eq_iff.1 hd with
  | push hop harg | checksum hop harg =>
    rw [payloadLen, hop, harg]
    rfl
  | configure hop | reset hop | pop hop | rdreg hop | rdregMaxStorage hop =>
    rw [payloadLen, hop]
    rfl

end Sys2Proof.Machine
end

section
/-! PROOFS. What a step answers to a reserved word (rules R78, R79), and when it takes a word from the command channel
(rules R86, R190). -/

namespace Sys2Proof.Machine

/-! ## Reserved words -/

/-- Rule R78: a reserved word whose response is taken is answered, and nothing else changes. -/
theorem illegalCommand_of_rspReady {s : State} (hr : s.rspReady = true) :
    illegalCommand s = s.answered (plainResponse .illegalCmd 0#32) :=
  respond_of_takes (by simpa using hr)

theorem step_reserved_inProgress {s : State} {w : Word} {e : Reserved} (hrst : s.rst = false)
    (hw : s.cmdWord = some w) (hr : s.rspReady = true) (hd : decode w = .error e) :
    step s = .next { s with
      cmdWord := none
      rsp := s.rsp ++ [{ status := .illegalCmd, value := 0#32, out := [], evTrunc := false }] } := by
  rw [step_of_inProgress hrst hw, serve_of_reserved hd, illegalCommand_of_rspReady hr]
  rfl

theorem step_reserved_presented {s : State} {w : Word} {rest : List Word} {e : Reserved}
    (hrst : s.rst = false) (hw : s.cmdWord = none) (hq : s.cmdIn = w :: rest) (hr : s.rspReady = true)
    (hd : decode w = .error e) :
    step s = .next { s with
      cmdIn := rest
      rsp := s.rsp ++ [{ status := .illegalCmd, value := 0#32, out := [], evTrunc := false }] } := by
  rw [step_of_presented hrst hw hq, serve_of_reserved hd, illegalCommand_of_rspReady (by exact hr)]
  simp [State.answered, plainResponse, hw]

/-- Rule R79: a word with a reserved operand is rejected. -/
theorem exists_reserved_of_operand {w : Word}
    (h : (opOf w = opReset ∧ argOf w ≠ 0) ∨ (opOf w = opRdreg ∧ 8 < argOf w)) :
    ∃ e, decode w = .error e := by
  obtain ⟨hop, harg⟩ | ⟨hop, harg⟩ := h
  · exact ⟨_, (Decodes.resetOperand hop harg).decode_eq⟩
  · exact ⟨_, (Decodes.registerNumber hop harg).decode_eq⟩

/-- Rule R79: every other word of the six opcodes is legal. -/
theorem exists_decode_of_legal {w : Word} (hop : opOf w ∈ definedOpcodes)
    (harg : ¬ ((opOf w = opReset ∧ argOf w ≠ 0) ∨ (opOf w = opRdreg ∧ 8 < argOf w))) :
    ∃ i, decode w = .ok i := by
  cases hd : decode w with
  | ok i => exact ⟨i, rfl⟩
  | error e =>
    cases decode_eq_iff.1 hd with
    | opcode hundef => exact absurd hop hundef
    | resetOperand hreset hne => exact absurd (.inl ⟨hreset, hne⟩) harg
    | registerNumber hrdreg hgt => exact absurd (.inr ⟨hrdreg, hgt⟩) harg

/-- Settles O7: a word whose opcode is not in the table is a reserved word. -/
theorem undefinedOpcodeAnswersIllegal : Obligations.UndefinedOpcodeAnswersIllegal := by
  unfold Obligations.UndefinedOpcodeAnswersIllegal
  refine ⟨fun s w rest hrst hw hq hr hop => ?_, fun s w hrst hw hr hop => ?_, by decide, by decide⟩
  · exact step_reserved_presented hrst hw hq hr (Decodes.opcode hop).decode_eq
  · exact step_reserved_inProgress hrst hw hr (Decodes.opcode hop).decode_eq

/-- Settles O8: the two reserved operands are rows of the table that reject; the other rows of the six opcodes
do not. -/
theorem reservedOperandsAnswerIllegal : Obligations.ReservedOperandsAnswerIllegal := by
  unfold Obligations.ReservedOperandsAnswerIllegal
  refine ⟨fun s w rest hrst hw hq hr h => ?_, fun s w hrst hw hr h => ?_,
    fun w hop harg => exists_decode_of_legal hop harg⟩
  · obtain ⟨e, hd⟩ := exists_reserved_of_operand h
    exact step_reserved_presented hrst hw hq hr hd
  · obtain ⟨e, hd⟩ := exists_reserved_of_operand h
    exact step_reserved_inProgress hrst hw hr hd

/-! ## The command channel -/

/-- Serving a word takes no other from the command channel. -/
theorem cmdIn_of_serve {s t : State} {w : Word} (h : serve w s = .next t) : t.cmdIn = s.cmdIn := by
  cases hd : decode w with
  | ok i =>
    rw [serve_of_decode hd] at h
    obtain ⟨-, -, -, -, -, hcmdIn, -, -⟩ := commandsStayInTheirUnit s t i h
    exact hcmdIn
  | error e =>
    rw [serve_of_reserved hd] at h
    cases h
    obtain ⟨-, heq⟩ | ⟨-, heq⟩ := respond_cases s s (plainResponse .illegalCmd 0#32)
    · rw [illegalCommand, heq, answered_cmdIn]
    · rw [illegalCommand, heq]

/-- The output `cmd_ready` is 1 exactly for an idle block out of reset. -/
theorem cmdReady_iff (s : State) : s.cmdReady = true ↔ s.rst = false ∧ s.cmdWord = none := by
  simp [State.cmdReady]

/-- Everything a step does to the command channel: where `cmd_ready` is 1 and a word is presented it takes that
word, and elsewhere it takes none. -/
theorem step_cmdIn_cases {s t : State} (h : step s = .next t) :
    (s.cmdReady = true ∧ ∃ w, s.cmdIn = w :: t.cmdIn) ∨
    (¬ (s.cmdReady = true ∧ s.cmdIn ≠ []) ∧ t.cmdIn = s.cmdIn) := by
  rw [cmdReady_iff]
  cases hrst : s.rst with
  | true =>
    rw [step_of_rst hrst] at h
    cases h
    exact .inr ⟨by simp, rfl⟩
  | false =>
    cases hw : s.cmdWord with
    | some w =>
      rw [step_of_inProgress hrst hw] at h
      exact .inr ⟨by simp, cmdIn_of_serve h⟩
    | none =>
      cases hq : s.cmdIn with
      | nil =>
        rw [step_of_idle hrst hw hq] at h
        cases h
        exact .inr ⟨by simp, hq⟩
      | cons w rest =>
        rw [step_of_presented hrst hw hq] at h
        exact .inl ⟨⟨rfl, rfl⟩, w, by rw [cmdIn_of_serve h]⟩

/-- Settles O10: of the two things a step does to the command channel, one changes it. -/
theorem wordsAcceptedOnlyWhenIdle : Obligations.WordsAcceptedOnlyWhenIdle := by
  unfold Obligations.WordsAcceptedOnlyWhenIdle
  intro s t h hne
  obtain ⟨hready, hword⟩ | ⟨-, heq⟩ := step_cmdIn_cases h
  · obtain ⟨hrst, hw⟩ := (cmdReady_iff s).1 hready
    exact ⟨hrst, hw, hword⟩
  · exact absurd heq hne

end Sys2Proof.Machine
end

section
/-! PROOFS. The response of a command that comes to its `respond` (rules R77, R86, R162, R164, R165, R167): its
status, its output bytes and `ev_trunc`. -/

namespace Sys2Proof.Machine

/-! ## The command comes to its `respond` -/

/-- In a state of the index invariant a command whose payload is there comes to its `respond`. -/
theorem exists_completes {s : State} {i : Instr} (hi : IndexInv s) (hp : payloadBytes i ≤ s.din.length) :
    ∃ u r, Completes s i u r := by
  cases i with
  | configure c =>
    by_cases hc : 1 ≤ c ∧ c ≤ s.params.maxStorage
    · exact ⟨_, _, .configure hc⟩
    · exact ⟨_, _, .configureOutOfRange hc⟩
  | reset => exact ⟨_, _, .reset⟩
  | push n => exact ⟨_, _, .push hi hp⟩
  | pop n => exact ⟨_, _, .pop hi⟩
  | checksum n => exact ⟨_, _, .checksum hp⟩
  | rdreg q => exact ⟨_, _, .rdreg⟩
  | rdregMaxStorage => exact ⟨_, _, .rdregMaxStorage⟩

/-- A host that takes responses and output bytes takes every response. -/
theorem takes_of_ready {s : State} (hr : s.rspReady = true) (hd : s.doutReady = true) (r : Response) :
    s.takes r = true := by
  simp [State.takes, hr, hd]

/-! ## What the command has taken, and what it answers -/

theorem Completes.din_eq {s u : State} {i : Instr} {r : Response} (hc : Completes s i u r) :
    u.din = s.din.drop (payloadBytes i) := by
  cases hc <;> rfl

/-- Rule R162: a transfer answers `OK` or `PARTIAL`. -/
theorem transferStatus_mem (count asked : Nat) : transferStatus count asked ∈ [Status.ok, .partialTransfer] := by
  unfold transferStatus
  split <;> simp

theorem transferStatus_ne_invalidCapacity (count asked : Nat) :
    transferStatus count asked ≠ .invalidCapacity := by
  intro h
  simpa [h] using transferStatus_mem count asked

/-- Rule R164: the statuses each command may answer. -/
theorem Completes.status_mem {s u : State} {i : Instr} {r : Response} (hc : Completes s i u r) :
    r.status ∈ allowedStatuses i := by
  cases hc with
  | push | pop => exact transferStatus_mem _ _
  | configure | configureOutOfRange | reset | checksum | rdreg | rdregMaxStorage =>
    simp [allowedStatuses, plainResponse]

/-- Rule R102: only the failed RB.CONFIGURE answers `INVALID_CAPACITY`, and it changes nothing. -/
theorem Completes.eq_of_invalidCapacity {s u : State} {i : Instr} {r : Response} (hc : Completes s i u r)
    (h : r.status = .invalidCapacity) : u = s := by
  cases hc with
  | configureOutOfRange | rdreg | rdregMaxStorage => rfl
  | push | pop => exact absurd h (transferStatus_ne_invalidCapacity _ _)
  | configure | reset | checksum => cases h

/-- Rule R77: only RB.POP answers bytes. -/
theorem Completes.out_eq_nil {s u : State} {i : Instr} {r : Response} (hc : Completes s i u r)
    (hpop : ∀ n, i ≠ .pop n) : r.out = [] := by
  cases hc with
  | pop => exact absurd rfl (hpop _)
  | configure | configureOutOfRange | reset | push | checksum | rdreg | rdregMaxStorage => rfl

/-- Rule R167: `ev_trunc` is 1 exactly with a `PARTIAL` RB.PUSH. -/
theorem Completes.evTrunc_iff {s u : State} {i : Instr} {r : Response} (hc : Completes s i u r) :
    r.evTrunc = true ↔ (∃ len, i = .push len) ∧ r.status = .partialTransfer := by
  cases hc with
  | push => simp [pushResponse]
  | pop => simp [popResponse]
  | configure | configureOutOfRange | reset | checksum | rdreg | rdregMaxStorage => simp [plainResponse]

/-- Settles O44: with its payload there the command comes to its `respond`, and the host takes the response. -/
theorem oneResponsePerCommand : Obligations.OneResponsePerCommand := by
  unfold Obligations.OneResponsePerCommand
  intro s i hi ⟨hp, hr, hd⟩
  obtain ⟨u, r, hc⟩ := exists_completes hi hp
  refine ⟨u.answered r, r, hc.exec_of_takes (takes_of_ready hr hd r), ?_, rfl, hc.din_eq, hc.status_mem, ?_⟩
  · rw [answered_rsp, hc.rsp_eq]
  · intro h
    rw [hc.eq_of_invalidCapacity h]

/-- Settles O45: a command whose response was transferred came to its `respond` with it. -/
theorem truncationEventOnlyForPush : Obligations.TruncationEventOnlyForPush := by
  unfold Obligations.TruncationEventOnlyForPush
  constructor
  · intro s t i r h hr
    obtain ⟨u, hc, -⟩ := completes_of_rsp h hr
    refine ⟨hc.evTrunc_iff, hc.out_eq_nil, ?_⟩
    rintro n rfl
    cases hc with
    | pop => exact ⟨rfl, List.length_take_le _ _⟩
  · intro s r hr
    obtain ⟨-, -, rfl⟩ := respond_of_rsp rfl hr
    rfl

end Sys2Proof.Machine
end

section
/-! PROOFS. The output levels (rules R85, R86, R167, R191) and the handshake of the command word and the response,
each by the response that is due. -/

namespace Sys2Proof.Machine

/-! ## The levels by the response due -/

theorem doutOffered_of_not_due {s : State} (h : s.responseDue = none) : s.doutOffered = none := by
  simp [State.doutOffered, h]

theorem rspOffered_of_not_due {s : State} (h : s.responseDue = none) : s.rspOffered = none := by
  simp [State.rspOffered, h]

theorem doutOffered_of_due {s : State} {r : Response} (h : s.responseDue = some r) :
    s.doutOffered = if s.doutReady then none else r.out.head? := by
  simp [State.doutOffered, h]

theorem rspOffered_of_due {s : State} {r : Response} (h : s.responseDue = some r) :
    s.rspOffered = if r.out.isEmpty || s.doutReady then some r else none := by
  simp [State.rspOffered, h]

theorem rspValid_of_not_offered {s : State} (h : s.rspOffered = none) : s.rspValid = false := by
  simp [State.rspValid, h]

theorem evTruncLevel_of_not_offered {s : State} (h : s.rspOffered = none) : s.evTruncLevel = false := by
  simp [State.evTruncLevel, h]

/-- With no response due, nothing is offered. -/
theorem levels_of_not_due {s : State} (h : s.responseDue = none) :
    s.doutValid = false ∧ s.rspValid = false ∧ s.evTruncLevel = false := by
  have hrsp := rspOffered_of_not_due h
  refine ⟨?_, rspValid_of_not_offered hrsp, evTruncLevel_of_not_offered hrsp⟩
  rw [State.doutValid, doutOffered_of_not_due h, Option.isSome_none]

/-- A response due with no output byte left to take is offered. -/
theorem levels_of_no_byte_left {s : State} {r : Response} (h : s.responseDue = some r)
    (hout : r.out = [] ∨ s.doutReady = true) :
    s.doutValid = false ∧ s.rspOffered = some r ∧ s.evTruncLevel = (s.rspReady && r.evTrunc) := by
  have hoffered : s.rspOffered = some r := by
    rw [rspOffered_of_due h]
    exact if_pos (by simpa using hout)
  refine ⟨?_, hoffered, by simp [State.evTruncLevel, hoffered]⟩
  rw [State.doutValid, doutOffered_of_due h]
  obtain hnil | hready := hout
  · simp [hnil]
  · simp [hready]

/-- A step transfers the response due exactly where the host takes all of it: where it is offered and taken. -/
theorem rspOffered_and_ready_iff {s : State} {d r : Response} (h : s.responseDue = some d) :
    s.rspOffered = some r ∧ s.rspReady = true ↔ s.takes d = true ∧ r = d := by
  rw [rspOffered_of_due h, State.takes]
  cases s.rspReady <;> cases d.out.isEmpty || s.doutReady <;> simp [eq_comm]

/-! ## The response due by the command in progress -/

theorem cmdReady_of_inProgress {s : State} {w : Word} (hw : s.cmdWord = some w) : s.cmdReady = false := by
  simp [State.cmdReady, hw]

theorem dinReady_of_rst {s : State} (h : s.rst = true) : s.dinReady = false := by
  unfold State.dinReady
  split
  · rfl
  · simp [h]

theorem dinReady_of_idle {s : State} (h : s.cmdWord = none) : s.dinReady = false := by
  simp [State.dinReady, h]

/-- With a command in progress `din_ready` says that its payload is not all there. -/
theorem dinReady_of_inProgress {s : State} {w : Word} (hr : s.rst = false) (hw : s.cmdWord = some w) :
    s.dinReady = decide (s.din.length < payloadLen w) := by
  simp [State.dinReady, hw, hr, State.payloadPresented, ← decide_not]

theorem payloadLen_of_decode {w : Word} {i : Instr} (hd : decode w = .ok i) : payloadLen w = payloadBytes i :=
  payloadLengthFixedByWord.2 w i hd

/-- The response due is the one the command in progress comes to its `respond` with. -/
theorem Completes.responseDue_eq {s u : State} {w : Word} {i : Instr} {r : Response}
    (hc : Completes { s with doutReady := true, rspReady := true } i u r) (hr : s.rst = false)
    (hw : s.cmdWord = some w) (hd : decode w = .ok i) : s.responseDue = some r :=
  responseDue_of_responds hr hw hd hc.rsp_eq hc.exec_eq

theorem indexInv_withReady {s : State} (h : IndexInv s) (a b : Bool) :
    IndexInv { s with doutReady := a, rspReady := b } :=
  ⟨h.capacity_pos, h.capacity_le, h.head_lt, h.tail_lt⟩

theorem responseDue_push {s : State} {w : Word} {n : Nat} (hi : IndexInv s) (hr : s.rst = false)
    (hw : s.cmdWord = some w) (hd : decode w = .ok (.push n)) (hl : n ≤ s.din.length) :
    s.responseDue = some (pushResponse n (min n s.free)) :=
  (Completes.push (indexInv_withReady hi true true) hl).responseDue_eq hr hw hd

theorem responseDue_pop {s : State} {w : Word} {n : Nat} (hi : IndexInv s) (hr : s.rst = false)
    (hw : s.cmdWord = some w) (hd : decode w = .ok (.pop n)) :
    s.responseDue = some (popResponse n (s.queue.take n)) :=
  (Completes.pop (indexInv_withReady hi true true)).responseDue_eq hr hw hd

/-- A command that is no RB.POP and has its payload is due a response without output bytes, and `ev_trunc` is
RB.PUSH's. -/
theorem exists_responseDue_of_ne_pop {s : State} {w : Word} {i : Instr} (hi : IndexInv s) (hr : s.rst = false)
    (hw : s.cmdWord = some w) (hd : decode w = .ok i) (hp : payloadBytes i ≤ s.din.length)
    (hpop : ∀ n, i ≠ .pop n) :
    ∃ r, s.responseDue = some r ∧ r.out = [] ∧ ((∀ n, i ≠ .push n) → r.evTrunc = false) := by
  obtain ⟨u, r, hc⟩ := exists_completes (indexInv_withReady hi true true) hp
  refine ⟨r, hc.responseDue_eq hr hw hd, hc.out_eq_nil hpop, fun hpush => ?_⟩
  rw [← Bool.not_eq_true, hc.evTrunc_iff]
  rintro ⟨⟨n, rfl⟩, -⟩
  exact hpush n rfl

/-- Every word in progress with its payload is due a response; with no output byte left to take it is offered, and
`ev_trunc` is RB.PUSH's. -/
theorem exists_responseDue_no_byte_left {s : State} {w : Word} (hi : IndexInv s) (hr : s.rst = false)
    (hw : s.cmdWord = some w) (hl : payloadLen w ≤ s.din.length)
    (hpop : ∀ n, decode w = .ok (.pop n) → s.doutReady = true ∨ min n s.occupancy = 0) :
    ∃ r, s.responseDue = some r ∧ (r.out = [] ∨ s.doutReady = true) ∧
      ((∀ n, decode w ≠ .ok (.push n)) → r.evTrunc = false) := by
  cases hd : decode w with
  | error e => exact ⟨_, responseDue_of_reserved hr hw hd, .inl rfl, fun _ => rfl⟩
  | ok i =>
    by_cases hpop' : ∃ n, i = .pop n
    · obtain ⟨n, rfl⟩ := hpop'
      refine ⟨_, responseDue_pop hi hr hw hd, ?_, fun _ => rfl⟩
      refine (hpop n hd).symm.imp_left fun hzero => List.length_eq_zero_iff.1 ?_
      rw [popResponse, List.length_take, queue_length, hzero]
    · rw [payloadLen_of_decode hd] at hl
      obtain ⟨r, hdue, hout, hev⟩ :=
        exists_responseDue_of_ne_pop hi hr hw hd hl fun n hn => hpop' ⟨n, hn⟩
      exact ⟨r, hdue, .inl hout, fun hpush => hev fun n hn => hpush n (congrArg _ hn)⟩

/-! ## The five forms -/

/-- Rule R191: an idle block and one in reset offer nothing and ask for nothing. -/
theorem levels_of_rst_or_idle {s : State} (h : s.rst = true ∨ s.cmdWord = none) :
    s.dinReady = false ∧ s.doutValid = false ∧ s.rspValid = false ∧ s.evTruncLevel = false := by
  obtain hrst | hidle := h
  · exact ⟨dinReady_of_rst hrst, levels_of_not_due (responseDue_of_rst hrst)⟩
  · exact ⟨dinReady_of_idle hidle, levels_of_not_due (responseDue_of_idle hidle)⟩

/-- A command that lacks payload asks for it and offers nothing. -/
theorem levels_of_waits {s : State} {w : Word} {i : Instr} (hi : IndexInv s) (hr : s.rst = false)
    (hw : s.cmdWord = some w) (hd : decode w = .ok i) (hp : s.din.length < payloadBytes i) :
    s.cmdReady = false ∧ s.dinReady = true ∧ s.doutValid = false ∧ s.rspValid = false ∧
      s.evTruncLevel = false := by
  refine ⟨cmdReady_of_inProgress hw, ?_, levels_of_not_due (responseDue_of_waits hi hr hw hd hp)⟩
  rw [dinReady_of_inProgress hr hw, payloadLen_of_decode hd]
  exact decide_eq_true hp

theorem dinReady_of_payload {s : State} {w : Word} (hr : s.rst = false) (hw : s.cmdWord = some w)
    (hl : payloadLen w ≤ s.din.length) : s.dinReady = false := by
  rw [dinReady_of_inProgress hr hw]
  exact decide_eq_false (not_lt.2 hl)

/-- Rule R167: `ev_trunc` of an RB.PUSH says that not all of it fits. -/
theorem pushResponse_evTrunc_iff (n free : Nat) : (pushResponse n (min n free)).evTrunc = true ↔ free < n := by
  simp [pushResponse, transferStatus]

theorem levels_of_push {s : State} {w : Word} {n : Nat} (hi : IndexInv s) (hr : s.rst = false)
    (hw : s.cmdWord = some w) (hd : decode w = .ok (.push n)) (hl : n ≤ s.din.length) :
    s.cmdReady = false ∧ s.dinReady = false ∧ s.doutValid = false ∧
      s.rspOffered = some (pushResponse n (min n s.free)) ∧
      (s.evTruncLevel = true ↔ s.free < n ∧ s.rspReady = true) := by
  obtain ⟨hdout, hoffered, hev⟩ := levels_of_no_byte_left (responseDue_push hi hr hw hd hl) (.inl rfl)
  refine ⟨cmdReady_of_inProgress hw, dinReady_of_payload hr hw ?_, hdout, hoffered, ?_⟩
  · rw [payloadLen_of_decode hd]
    exact hl
  · rw [hev, Bool.and_eq_true, pushResponse_evTrunc_iff, and_comm]

/-- The oldest queued byte is the one at `tail`. -/
theorem head?_take_queue {s : State} {n : Nat} (hi : IndexInv s) (hn : 0 < min n s.occupancy) :
    (s.queue.take n).head? = some (s.slot s.tail) := by
  rw [List.head?_eq_getElem?, List.getElem?_take_of_lt (by omega), queue_getElem? (by omega), queueSlot_zero hi]

theorem levels_of_pop_blocked {s : State} {w : Word} {n : Nat} (hi : IndexInv s) (hr : s.rst = false)
    (hw : s.cmdWord = some w) (hd : decode w = .ok (.pop n)) (hn : 0 < min n s.occupancy)
    (hdout : s.doutReady = false) :
    s.cmdReady = false ∧ s.dinReady = false ∧ s.doutOffered = some (s.slot s.tail) ∧ s.rspValid = false ∧
      s.evTruncLevel = false := by
  have hdue := responseDue_pop hi hr hw hd
  have hhead := head?_take_queue hi hn
  have hrsp : s.rspOffered = none := by
    rw [rspOffered_of_due hdue, hdout, Bool.or_false]
    refine if_neg fun hempty => ?_
    have hnil : s.queue.take n = [] := List.isEmpty_iff.1 hempty
    rw [hnil] at hhead
    cases hhead
  refine ⟨cmdReady_of_inProgress hw, dinReady_of_payload hr hw ?_, ?_, rspValid_of_not_offered hrsp,
    evTruncLevel_of_not_offered hrsp⟩
  · rw [payloadLen_of_decode hd]
    exact Nat.zero_le _
  · rw [doutOffered_of_due hdue, hdout]
    exact hhead

/-- Settles O53: the levels follow from the response due, which what is in progress gives. -/
theorem outputLevelsByProgress : Obligations.OutputLevelsByProgress := by
  unfold Obligations.OutputLevelsByProgress
  refine ⟨fun s => levels_of_rst_or_idle, fun s n hi hr hfit hshort hw => ?_,
    fun s n hi hr hfit hl hw => ?_, fun s n hi hr hfit hn hdout hw => ?_, fun s w hi hr hw hl hpop => ?_⟩
  · obtain hw | hw := hw
    · exact levels_of_waits hi hr hw (decodeOfEncodeIsIdentity (.push n) hfit) hshort
    · exact levels_of_waits hi hr hw (decodeOfEncodeIsIdentity (.checksum n) hfit) hshort
  · exact levels_of_push hi hr hw (decodeOfEncodeIsIdentity (.push n) hfit) hl
  · exact levels_of_pop_blocked hi hr hw (decodeOfEncodeIsIdentity (.pop n) hfit) hn hdout
  · obtain ⟨r, hdue, hout, hevr⟩ := exists_responseDue_no_byte_left hi hr hw hl hpop
    obtain ⟨hdout, hoffered, hev⟩ := levels_of_no_byte_left hdue hout
    refine ⟨cmdReady_of_inProgress hw, dinReady_of_payload hr hw hl, hdout, ?_, fun hpush => ?_⟩
    · rw [State.rspValid, hoffered, Option.isSome_some]
    · rw [hev, hevr hpush, Bool.and_false]

/-! ## The handshake -/

/-- Settles O54: a step takes a word where `cmd_ready` is 1 and one is presented; a command in progress with a
response due responds with it, and the host takes it where it is offered and `rsp_ready` is 1. -/
theorem transfersFollowHandshake : Obligations.TransfersFollowHandshake := by
  unfold Obligations.TransfersFollowHandshake
  constructor
  · intro s t h
    obtain ⟨hready, w, hw⟩ | ⟨hnot, heq⟩ := step_cmdIn_cases h
    · simp [hready, hw]
    · exact iff_of_false (not_not.2 heq) hnot
  · intro s w r hi hr hw
    obtain ⟨hdue, hstep⟩ | ⟨d, u, hdue, hu, hstep⟩ := step_responds hi hr hw
    · rw [hstep, rspOffered_of_not_due hdue]
      simp
    · rw [hstep, rspOffered_and_ready_iff hdue]
      constructor
      · rintro ⟨t, ht, hrsp⟩
        cases ht
        obtain ⟨htakes, -, hrd⟩ := respond_of_rsp hu hrsp
        exact ⟨htakes, hrd⟩
      · rintro ⟨htakes, rfl⟩
        exact ⟨_, rfl, by rw [respond_of_takes htakes, answered_rsp, hu]⟩

end Sys2Proof.Machine
end

section
/-! PROOFS. The textual form (rules R83, R84): a line the assembler accepts is a frame of one of two kinds, with
an operand and no payload, or a payload whose length is its operand. -/

namespace Sys2Proof.Machine

/-- A word frame of an opcode that takes no payload is a frame of the block. -/
theorem wellFormed_wordFrame {op : BitVec 8} (hop : ¬ (op = opPush ∨ op = opChecksum)) (n : Nat) :
    (wordFrame op n).WellFormed := by
  rw [Frame.WellFormed, wordFrame, payloadLen, opOf_commandWord, if_neg hop, List.length_nil]

/-- So is a payload frame of an opcode that takes `arg` bytes. -/
theorem wellFormed_payloadFrame {op : BitVec 8} (hop : op = opPush ∨ op = opChecksum) {bytes : List Byte}
    {f : Frame} (h : payloadFrame op bytes = some f) : f.WellFormed := by
  obtain ⟨hlen, hf⟩ := Option.ite_none_right_eq_some.1 h
  cases hf
  rw [Frame.WellFormed, payloadLen, opOf_commandWord, if_pos hop, argOf_commandWord op hlen]

/-- `MakesFrames o`: what `o` holds, if anything, is a frame of the block. -/
def MakesFrames (o : Option Frame) : Prop := ∀ f, o = some f → f.WellFormed

theorem MakesFrames.none : MakesFrames none := nofun

theorem MakesFrames.word {op : BitVec 8} (hop : ¬ (op = opPush ∨ op = opChecksum)) (n : Nat) :
    MakesFrames (some (wordFrame op n)) := by
  rintro f ⟨⟩
  exact wellFormed_wordFrame hop n

theorem MakesFrames.operand {op : BitVec 8} (hop : ¬ (op = opPush ∨ op = opChecksum)) (o : Option Nat) :
    MakesFrames (o.map (wordFrame op)) := by
  cases o with
  | none => exact .none
  | some n => exact .word hop n

theorem MakesFrames.payload {α : Type} {op : BitVec 8} (hop : op = opPush ∨ op = opChecksum) (o : Option α)
    (bytes : α → List Byte) : MakesFrames (o.bind fun a => payloadFrame op (bytes a)) := by
  cases o with
  | none => exact .none
  | some a => exact fun f => wellFormed_payloadFrame hop

theorem MakesFrames.ite {c : Prop} [Decidable c] {o p : Option Frame} (ho : MakesFrames o)
    (hp : MakesFrames p) : MakesFrames (if c then o else p) := by
  split
  · exact ho
  · exact hp

/-- Every line of the two tables makes frames of the block: one branch per mnemonic, in the order of the tables. -/
theorem makesFrames_assembleTokens (m : List Char) (ts : List Token) : MakesFrames (assembleTokens m ts) := by
  unfold assembleTokens
  refine .ite ?configure <| .ite ?reset <| .ite ?push <| .ite ?pop <| .ite ?checksum <| .ite ?rdreg <|
    .ite ?push1 <| .ite ?pop1 <| .ite ?status <| .ite ?count <| .ite ?ready .none
  case push | checksum => exact .payload (by decide) _ id
  case push1 =>
    split
    · exact .payload (by decide) _ fun v => [v]
    · exact .none
  case configure | pop | rdreg =>
    split
    · exact .operand (by decide) _
    · exact .none
  case reset | pop1 | status | count | ready =>
    split
    · exact .word (by decide) _
    · exact .none

/-- Settles O52: a line that assembles is a mnemonic with its operands. -/
theorem assembledFramesAreWellFormed : Obligations.AssembledFramesAreWellFormed := by
  unfold Obligations.AssembledFramesAreWellFormed
  intro line f h
  unfold assembleLine at h
  split at h
  · exact makesFrames_assembleTokens _ _ f h
  · cases h

/-- Settles O51: the fifteen lines, each by evaluation. -/
theorem assemblerLines : Obligations.AssemblerLines := by
  unfold Obligations.AssemblerLines
  decide +kernel

end Sys2Proof.Machine
end

section
/-! PROOFS. RB.CONFIGURE and RB.RESET (rules R101, R102, R104): the empty buffer an index reset leaves, the whole next
state of each command, and their command words. -/

namespace Sys2Proof.Machine

/-! ## The buffer an index reset leaves -/

/-- A buffer with both indices 0 is empty. -/
theorem empty_of_zero {s : State} (hh : s.head = 0) (ht : s.tail = 0) : s.empty = true := by
  rw [empty_iff, hh, ht]

/-- Rule R29: a buffer with both indices 0 is full exactly at capacity 1. -/
theorem full_of_zero_iff {s : State} (hh : s.head = 0) (ht : s.tail = 0) (hc : 1 ≤ s.capacity) :
    s.full = true ↔ s.capacity = 1 := by
  rw [full_iff, State.nextIndex, hh, ht]
  obtain hone | htwo := hc.eq_or_lt
  · simp [← hone]
  · simp [Nat.mod_eq_of_lt htwo, htwo.ne']

/-- Rule R102: the usable capacity after a successful RB.CONFIGURE. -/
theorem free_configured (s : State) (c : Nat) : (s.configured c).free = c - 1 := by
  rw [State.free, occupancy_configured, configured_capacity, Nat.sub_zero]

/-! ## The words of the two commands -/

/-- Rule R71: a command word is its opcode in the top byte plus its operand. -/
theorem commandWord_eq_add (op : BitVec 8) {n : Nat} (h : n < 2 ^ 24) :
    commandWord op n = (op ++ 0#24) + BitVec.ofNat 32 n := by
  apply BitVec.eq_of_toNat_eq
  have hop := op.isLt
  rw [commandWord, BitVec.toNat_add, BitVec.toNat_append, BitVec.toNat_append, BitVec.toNat_ofNat,
    Nat.mod_eq_of_lt h, ← Nat.shiftLeft_add_eq_or_of_lt h, BitVec.toNat_ofNat, BitVec.toNat_ofNat,
    Nat.zero_mod, Nat.or_zero, Nat.shiftLeft_eq]
  omega

/-- The encoded word of a well-formed command has the payload of the command. -/
theorem payloadLen_encode {i : Instr} (h : i.WellFormed) : payloadLen (encode i) = payloadBytes i :=
  payloadLen_of_decode (decodeOfEncodeIsIdentity i h)

/-! ## The statements -/

/-- Settles O13: RB.CONFIGURE in range comes to its `respond` in the configured state. -/
theorem configureSetsCapacity : Obligations.ConfigureSetsCapacity := by
  unfold Obligations.ConfigureSetsCapacity
  intro s c hr hpos hle
  refine ⟨(s.configured c).answered (plainResponse .ok 1#32),
    (Completes.configure ⟨hpos, hle⟩).exec_of_takes (by simpa using hr), rfl, empty_of_zero rfl rfl,
    full_of_zero_iff rfl rfl hpos, fun hc => ⟨commandWord_eq_add _ hc, payloadLen_encode hc⟩⟩

/-- Settles O14: RB.CONFIGURE comes to its `respond` in one of two ways, by the range of its operand. -/
theorem configureFailsOutOfRange : Obligations.ConfigureFailsOutOfRange := by
  unfold Obligations.ConfigureFailsOutOfRange
  constructor
  · intro s c hr hout
    exact (Completes.configureOutOfRange (by omega)).exec_of_takes (by simpa using hr)
  · intro s t c r hexec hrsp
    obtain ⟨u, hc, rfl⟩ := completes_of_rsp hexec hrsp
    cases hc with
    | configure hc => exact ⟨⟨fun _ => hc, fun _ => rfl⟩, fun _ => free_configured s c⟩
    | configureOutOfRange hc => exact ⟨⟨nofun, fun h => absurd h hc⟩, nofun⟩

/-- Settles O15: RB.RESET comes to its `respond` with the indices and the counters at 0. -/
theorem resetClearsIndicesAndCounters : Obligations.ResetClearsIndicesAndCounters := by
  unfold Obligations.ResetClearsIndicesAndCounters
  intro s hr
  exact ⟨s.bufferReset.answered (plainResponse .ok 0#32), Completes.reset.exec_of_takes (by simpa using hr), rfl,
    empty_of_zero rfl rfl, fun hc => full_of_zero_iff rfl rfl hc, rfl, payloadLen_encode trivial⟩

end Sys2Proof.Machine
end

section
/-! PROOFS. RB.PUSH and RB.POP (rules R105 to R114): what the completed transfers leave in the registers and in
`storage`, how two transfers make one, and when a transfer moves nothing. -/

namespace Sys2Proof.Machine

/-! ## The response of a transfer -/

theorem pushResponse_eq (n count : Nat) :
    pushResponse n count = {
      status := if count = n then .ok else .partialTransfer
      value := BitVec.ofNat 32 count
      out := []
      evTrunc := decide (count ≠ n) } := by
  by_cases h : count = n <;> simp [pushResponse, transferStatus, valueOf, h]

/-- Rule R111: the response of an RB.POP that returns the bytes `out`. -/
theorem popResponse_eq {n count : Nat} {out : List Byte} (h : out.length = count) :
    popResponse n out = {
      status := if count = n then .ok else .partialTransfer
      value := BitVec.ofNat 32 count
      out := out
      evTrunc := false } := by
  rw [popResponse, h]
  rfl

/-- Rule R162: an RB.PUSH answers `OK` exactly when everything fitted. -/
theorem pushResponse_status_ok_iff (n free : Nat) :
    (pushResponse n (min n free)).status = .ok ↔ n ≤ free := by
  by_cases h : n ≤ free <;> simp [pushResponse_eq, h]

/-- The number of bytes an RB.POP of at most `n` returns. -/
theorem length_take_queue (s : State) (n : Nat) : (s.queue.take n).length = min n s.occupancy := by
  rw [List.length_take, queue_length]

/-- A host that takes responses takes one without output bytes. -/
theorem takes_of_out_eq_nil {s : State} {r : Response} (hr : s.rspReady = true) (ho : r.out = []) :
    s.takes r = true := by
  simp [State.takes, hr, ho]

/-! ## Completed transfers -/

/-- RB.PUSH with its payload there and its response taken. -/
theorem exec_push_eq {s : State} {n : Nat} (h : IndexInv s) (hr : s.rspReady = true) (hl : n ≤ s.din.length) :
    exec (.push n) s = .next ((s.pushed n).answered (pushResponse n (min n s.free))) :=
  (Completes.push h hl).exec_of_takes (by simpa using hr)

/-- RB.POP with its output and its response taken. -/
theorem exec_pop_eq {s : State} (n : Nat) (h : IndexInv s) (hr : s.rspReady = true) (hd : s.doutReady = true) :
    exec (.pop n) s = .next ((s.popped n).answered (popResponse n (s.queue.take n))) :=
  (Completes.pop h).exec_of_takes (takes_of_ready hr hd _)

/-- Rule R108: RB.PUSH uses up free bytes as it stores. -/
theorem free_pushed {s : State} (h : IndexInv s) (n : Nat) : (s.pushed n).free = s.free - min n s.free := by
  have hbefore := free_add_occupancy h
  have hafter : (s.pushed n).free + (s.pushed n).occupancy = s.capacity - 1 :=
    free_add_occupancy (indexInv_pushed h n)
  rw [occupancy_pushed h] at hafter
  omega

/-- The buffer is full after RB.PUSH exactly when all free bytes were asked for. -/
theorem full_pushed_iff {s : State} (h : IndexInv s) (n : Nat) : (s.pushed n).full = true ↔ s.free ≤ n := by
  rw [full_iff_free (indexInv_pushed h n), free_pushed h]
  omega

/-- The buffer is empty after RB.POP exactly when all queued bytes were asked for. -/
theorem empty_popped_iff {s : State} (h : IndexInv s) (n : Nat) :
    (s.popped n).empty = true ↔ s.occupancy ≤ n := by
  rw [empty_iff_occupancy (indexInv_popped h n), occupancy_popped h]
  omega

/-- Rule R108: RB.PUSH changes no slot but those of the bytes that fit. -/
theorem slot_pushed_outside {s : State} {n a : Nat} (h : IndexInv s) (hl : n ≤ s.din.length)
    (ha : ∀ k, k < min n s.free → a ≠ s.pushSlot k) : (s.pushed n).slot a = s.slot a := by
  obtain ⟨-, -, -, hother⟩ :=
    pushLoop_spec (s.din.take n) (s.consumePayload n) 0 (indexInv_consumePayload h n)
  have hlen : (s.din.take n).length = n := by simp [hl]
  rw [slot_pushed h]
  exact hother a fun k hk => ha k (by rw [hlen] at hk; exact hk)

/-- Settles O16: the registers are those of the completed RB.PUSH, whose queue a following RB.POP returns. -/
theorem pushStoresLongestFittingPrefix : Obligations.PushStoresLongestFittingPrefix := by
  unfold Obligations.PushStoresLongestFittingPrefix
  intro s len h hr hl
  refine ⟨(s.pushed len).answered (pushResponse len (min len s.free)), exec_push_eq h hr hl, ?_,
    fun k hk => slot_pushed_new h hl hk, fun a ha => slot_pushed_outside h hl ha, occupancy_pushed h len,
    full_pushed_iff h len, fun hd => ?_⟩
  · rw [pushResponse_eq]
    rfl
  · generalize hresp : pushResponse len (min len s.free) = r
    have hqueue : ((s.pushed len).answered r).queue = s.queue ++ s.din.take (min len s.free) := by
      rw [Nat.min_comm, ← List.take_take]
      exact queue_pushed h hl
    refine ⟨_, _, exec_pop_eq _ (indexInv_answered (indexInv_pushed h len) _) hr hd, rfl, ?_⟩
    rw [← hqueue, ← queue_length]
    exact List.take_length

/-- Settles O17: the registers are those of the completed RB.POP, which returns the front of the queue. -/
theorem popReturnsOldestBytes : Obligations.PopReturnsOldestBytes := by
  unfold Obligations.PopReturnsOldestBytes
  intro s n h hr hd
  refine ⟨_, s.queue.take n, exec_pop_eq n h hr hd, ?_, ?_, occupancy_popped h n, empty_popped_iff h n⟩
  · rw [← popLoop_out_eq_take h, popLoop_out h]
    rfl
  · rw [popResponse_eq (length_take_queue s n)]
    rfl

/-- Settles O33: a configured buffer has `c - 1` bytes free and none queued. -/
theorem usableCapacityIsOneLess : Obligations.UsableCapacityIsOneLess := by
  unfold Obligations.UsableCapacityIsOneLess
  intro s c n hr hpos hle hl
  have hi : IndexInv ((s.configured c).answered (plainResponse .ok 1#32)) :=
    indexInv_answered (indexInv_configured ⟨hpos, hle⟩) _
  have hok := pushResponse_status_ok_iff n (s.configured c).free
  refine ⟨_, _, _, (Completes.configure ⟨hpos, hle⟩).exec_of_takes (by simpa using hr), exec_push_eq hi hr hl,
    rfl, free_configured s c ▸ hok, fun hstatus => ?_⟩
  have hfits : n ≤ (s.configured c).free := hok.1 hstatus
  calc _ = (s.configured c).occupancy + min n (s.configured c).free := occupancy_pushed hi n
    _ = n := by rw [occupancy_configured, Nat.min_eq_left hfits, Nat.zero_add]

/-! ## Two transfers in a row -/

/-- What the loop of RB.PUSH stores depends on the ring alone. -/
theorem pushLoop_storage_congr (bs : List Byte) {s t : State} (m n : Nat) (hstorage : s.storage = t.storage)
    (hcap : s.capacity = t.capacity) (hhead : s.head = t.head) (htail : s.tail = t.tail) :
    (pushLoop bs s m).1.storage = (pushLoop bs t n).1.storage := by
  induction bs generalizing s t m n with
  | nil => exact hstorage
  | cons b bs ih =>
    have hnext : s.nextIndex s.head = t.nextIndex t.head := by rw [State.nextIndex, State.nextIndex, hcap, hhead]
    have hfull : s.full = t.full := by rw [State.full, State.full, hnext, htail]
    rw [pushLoop, pushLoop, hfull]
    split
    · exact hstorage
    · exact ih _ _ (by rw [pushByte_storage, pushByte_storage, hstorage, hhead]) hcap hnext htail

/-- Answering a command in between does not touch what RB.PUSH works on. -/
theorem pushed_answered (s : State) (r : Response) (n : Nat) :
    (s.answered r).pushed n = (s.pushed n).answered r := by
  have hstorage : (pushLoop (s.din.take n) ((s.answered r).consumePayload n) 0).1.storage =
      (pushLoop (s.din.take n) (s.consumePayload n) 0).1.storage :=
    pushLoop_storage_congr _ 0 0 rfl rfl rfl rfl
  rw [State.pushed, answered_din, hstorage]
  rfl

theorem popped_answered (s : State) (r : Response) (n : Nat) :
    (s.answered r).popped n = (s.popped n).answered r := rfl

/-- Two RB.PUSHes in a row store together what one of both lengths stores. -/
theorem stored_add_stored {s : State} (h : IndexInv s) (m n : Nat) :
    min m s.free + min n (s.pushed m).free = min (m + n) s.free := by
  rw [free_pushed h]
  omega

/-- Two RB.POPs in a row return together as many bytes as one of both lengths. -/
theorem returned_add_returned {s : State} (h : IndexInv s) (m n : Nat) :
    min m s.occupancy + min n (s.popped m).occupancy = min (m + n) s.occupancy := by
  rw [occupancy_popped h]
  omega

theorem truncN_truncN_add (w a b c : Nat) : truncN w (truncN w (a + b) + c) = truncN w (a + (b + c)) := by
  rw [truncN, truncN, truncN, Nat.mod_add_mod, Nat.add_assoc]

/-- The bytes RB.PUSH stores in two parts are those it stores in one. -/
theorem storage_pushed_pushed {s : State} {m : Nat} (h : IndexInv s) (hl : m ≤ s.din.length) (n : Nat) :
    ((s.pushed m).pushed n).storage = (s.pushed (m + n)).storage := by
  obtain ⟨-, hstate⟩ := pushLoop_payload h hl
  have hfirst : (pushLoop (s.din.take m) (s.consumePayload m) 0).1.storage =
      (pushLoop (s.din.take m) (s.consumePayload (m + n)) 0).1.storage :=
    pushLoop_storage_congr _ 0 0 rfl rfl rfl rfl
  obtain ⟨-, hring, -, -⟩ :=
    pushLoop_spec (s.din.take m) (s.consumePayload (m + n)) 0 (indexInv_consumePayload h _)
  rw [List.length_take, Nat.min_eq_left hl] at hring
  calc ((s.pushed m).pushed n).storage
      = (pushLoop ((s.din.drop m).take n) ((s.pushed m).consumePayload n) 0).1.storage := rfl
    _ = (pushLoop ((s.din.drop m).take n) (pushLoop (s.din.take m) (s.consumePayload (m + n)) 0).1
          (pushLoop (s.din.take m) (s.consumePayload (m + n)) 0).2).1.storage :=
        pushLoop_storage_congr _ _ _ hfirst (by rw [hring]; rfl) (by rw [hring]; rfl) (by rw [hring]; rfl)
    _ = (s.pushed (m + n)).storage := by
        rw [← pushLoop_append, ← List.take_add]
        rfl

theorem pushSlot_pushed (s : State) (n k : Nat) :
    (s.pushed n).pushSlot k = s.pushSlot (min n s.free + k) := by
  simp only [State.pushSlot, State.pushed, Nat.mod_add_mod, Nat.add_assoc]

/-- Rule R109 (g): RB.PUSH of `m` and then of `n` bytes is RB.PUSH of `m + n`. -/
theorem pushed_pushed {s : State} {m : Nat} (h : IndexInv s) (hl : m ≤ s.din.length) (n : Nat) :
    (s.pushed m).pushed n = s.pushed (m + n) := by
  have hsum := stored_add_stored h m n
  have hhead : (s.pushed m).pushSlot (min n (s.pushed m).free) = s.pushSlot (min (m + n) s.free) := by
    rw [pushSlot_pushed, hsum]
  have hcount : truncN s.params.cntW ((s.pushed m).totalPushed + min n (s.pushed m).free) =
      truncN s.params.cntW (s.totalPushed + min (m + n) s.free) := by
    rw [← hsum]
    exact truncN_truncN_add _ _ _ _
  calc (s.pushed m).pushed n
      = { s with
          storage := ((s.pushed m).pushed n).storage
          head := (s.pushed m).pushSlot (min n (s.pushed m).free)
          totalPushed := truncN s.params.cntW ((s.pushed m).totalPushed + min n (s.pushed m).free)
          din := (s.din.drop m).drop n } := rfl
    _ = s.pushed (m + n) := by
        rw [storage_pushed_pushed h hl, hhead, hcount, List.drop_drop]
        rfl

/-- Rule R113 (e): RB.POP of at most `m` and then of at most `n` bytes is RB.POP of at most `m + n`. -/
theorem popped_popped {s : State} (h : IndexInv s) (m n : Nat) :
    (s.popped m).popped n = s.popped (m + n) := by
  have hsum := returned_add_returned h m n
  have htail : (s.popped m).queueSlot (min n (s.popped m).occupancy) =
      s.queueSlot (min (m + n) s.occupancy) := by
    rw [queueSlot_popped, hsum]
  have hcount : truncN s.params.cntW ((s.popped m).totalPopped + min n (s.popped m).occupancy) =
      truncN s.params.cntW (s.totalPopped + min (m + n) s.occupancy) := by
    rw [← hsum]
    exact truncN_truncN_add _ _ _ _
  calc (s.popped m).popped n
      = { s with
          tail := (s.popped m).queueSlot (min n (s.popped m).occupancy)
          totalPopped := truncN s.params.cntW ((s.popped m).totalPopped + min n (s.popped m).occupancy) } := rfl
    _ = s.popped (m + n) := by
        rw [htail, hcount]
        rfl

/-- Settles O30: the second RB.PUSH goes on where the first one stopped. -/
theorem pushInTwoPartsIsOnePush : Obligations.PushInTwoPartsIsOnePush := by
  unfold Obligations.PushInTwoPartsIsOnePush
  intro s m n h hr hl
  have hm : m ≤ s.din.length := by omega
  have hn : n ≤ (s.din.drop m).length := by
    rw [List.length_drop]
    omega
  refine ⟨_, _, _, _, _, _, exec_push_eq h hr hm, rfl,
    exec_push_eq (indexInv_answered (indexInv_pushed h m) _) hr hn, rfl, exec_push_eq h hr hl, rfl, ?_, ?_⟩
  · rw [pushed_answered, pushed_pushed h hm]
    rfl
  · calc valueOf (min (m + n) s.free)
        = valueOf (min m s.free + min n (s.pushed m).free) := by rw [stored_add_stored h]
      _ = valueOf (min m s.free) + valueOf (min n (s.pushed m).free) := BitVec.ofNat_add _ _

/-- Settles O31: the second RB.POP goes on where the first one stopped. -/
theorem popInTwoPartsIsOnePop : Obligations.PopInTwoPartsIsOnePop := by
  unfold Obligations.PopInTwoPartsIsOnePop
  intro s m n h hr hd
  refine ⟨_, _, _, _, _, _, exec_pop_eq m h hr hd, rfl,
    exec_pop_eq n (indexInv_answered (indexInv_popped h m) _) hr hd, rfl, exec_pop_eq (m + n) h hr hd, rfl, ?_, ?_⟩
  · rw [popped_answered, popped_popped h]
    rfl
  · have hqueue : ((s.popped m).answered (popResponse m (s.queue.take m))).queue = s.queue.drop m :=
      queue_popped h m
    rw [hqueue]
    exact List.take_add

/-! ## Transfers that move nothing -/

/-- With no byte to look at or no room, the loop of RB.PUSH changes nothing. -/
theorem pushLoop_of_none_stored {s : State} {bs : List Byte} (h : IndexInv s) (hz : min bs.length s.free = 0)
    (n : Nat) : pushLoop bs s n = (s, n) := by
  cases bs with
  | nil => rfl
  | cons b bs =>
    have hfull : s.full = true := (full_iff_free h).2 (by rw [List.length_cons] at hz; omega)
    rw [pushLoop, if_pos hfull]

/-- A counter within its width is kept when nothing is added. -/
theorem truncN_of_lt {w n : Nat} (h : n < 2 ^ w) : truncN w n = n := Nat.mod_eq_of_lt h

/-- Rule R109 (a), (b): an RB.PUSH that stores nothing takes its payload and changes nothing else. -/
theorem pushed_of_none_stored {s : State} {n : Nat} (h : IndexInv s) (hc : CounterInv s)
    (hl : n ≤ s.din.length) (hz : min n s.free = 0) : s.pushed n = { s with din := s.din.drop n } := by
  have hlen : min (s.din.take n).length (s.consumePayload n).free = 0 := by
    rw [List.length_take, Nat.min_eq_left hl]
    exact hz
  rw [State.pushed, pushLoop_of_none_stored (indexInv_consumePayload h n) hlen, hz, pushSlot_zero h,
    Nat.add_zero, truncN_of_lt hc.pushed_lt]
  rfl

/-- Rule R113 (a), (b): an RB.POP that returns nothing changes nothing. -/
theorem popped_of_none_returned {s : State} {n : Nat} (h : IndexInv s) (hc : CounterInv s)
    (hz : min n s.occupancy = 0) : s.popped n = s := by
  rw [State.popped, hz, queueSlot_zero h, Nat.add_zero, truncN_of_lt hc.popped_lt]

theorem exec_push_of_none_stored {s : State} {n : Nat} (h : IndexInv s) (hc : CounterInv s)
    (hr : s.rspReady = true) (hl : n ≤ s.din.length) (hz : min n s.free = 0) :
    exec (.push n) s = .next (State.answered { s with din := s.din.drop n } (pushResponse n 0)) := by
  rw [exec_push_eq h hr hl, pushed_of_none_stored h hc hl hz, hz]

/-- With no output byte the host need not take output for the RB.POP to complete. -/
theorem exec_pop_of_none_returned {s : State} {n : Nat} (h : IndexInv s) (hc : CounterInv s)
    (hr : s.rspReady = true) (hz : min n s.occupancy = 0) :
    exec (.pop n) s = .next (s.answered (popResponse n [])) := by
  have hout : s.queue.take n = [] := List.length_eq_zero_iff.1 ((length_take_queue s n).trans hz)
  have hcompletes : Completes s (.pop n) (s.popped n) (popResponse n (s.queue.take n)) := .pop h
  rw [hout, popped_of_none_returned h hc hz] at hcompletes
  exact hcompletes.exec_of_takes (takes_of_out_eq_nil hr rfl)

/-- Settles O32: each of the four transfers has nothing to move, and answers by what it was asked. -/
theorem transfersThatMoveNothing : Obligations.TransfersThatMoveNothing := by
  unfold Obligations.TransfersThatMoveNothing
  intro s h hc hr
  refine ⟨exec_push_of_none_stored h hc hr (Nat.zero_le _) (Nat.zero_min _),
    exec_pop_of_none_returned h hc hr (Nat.zero_min _), fun n hn hl hfull => ?_, fun n hn hempty => ?_⟩
  · have hfree : s.free = 0 := (full_iff_free h).1 hfull
    rw [exec_push_of_none_stored h hc hr hl (by rw [hfree, Nat.min_zero]), pushResponse_eq]
    simp [hn.ne]
  · have hocc : s.occupancy = 0 := (empty_iff_occupancy h).1 hempty
    rw [exec_pop_of_none_returned h hc hr (by rw [hocc, Nat.min_zero]), popResponse_eq (count := 0) rfl]
    simp [hn.ne]

end Sys2Proof.Machine
end

section
/-! PROOFS. First in, first out over any run (rule R114): what one step makes of the first frame presented, what each
frame adds to the stored and to the returned bytes, and the induction over the frames. -/

namespace Sys2Proof.Machine

/-! ## The step that runs the first frame presented -/

/-- The block `s` with the command word of `f` accepted, the payload of `f` and the frames `fs` still presented. -/
def State.begun (s : State) (f : Frame) (fs : List Frame) : State :=
  { s.present (f :: fs) with cmdIn := fs.map (fun g => g.word), cmdWord := some f.word }

/-- The block `s` with nothing presented to it. -/
def State.drained (s : State) : State := { s with cmdIn := [], din := [] }

theorem begun_din {s : State} (h : s.din = []) (f : Frame) (fs : List Frame) :
    (s.begun f fs).din = f.payload ++ fs.flatMap (fun g => g.payload) := by
  rw [State.begun, State.present, h]
  rfl

theorem indexInv_begun {s : State} (h : IndexInv s) (f : Frame) (fs : List Frame) : IndexInv (s.begun f fs) :=
  ⟨h.capacity_pos, h.capacity_le, h.head_lt, h.tail_lt⟩

theorem indexInv_drained {s : State} (h : IndexInv s) : IndexInv s.drained :=
  ⟨h.capacity_pos, h.capacity_le, h.head_lt, h.tail_lt⟩

/-- Presenting again what was left gives the state back. -/
theorem drained_present {u : State} {fs : List Frame} (hcmd : u.cmdIn = fs.map (fun g => g.word))
    (hdin : u.din = fs.flatMap (fun g => g.payload)) : u.drained.present fs = u := by
  rw [State.present, State.drained]
  simp only [List.nil_append, ← hcmd, ← hdin]

/-- An idle block accepts the first word presented and serves it. -/
theorem step_present_cons {s : State} (hp : IdlePorts s) (f : Frame) (fs : List Frame) :
    step (s.present (f :: fs)) = serve f.word (s.begun f fs) :=
  step_of_presented hp.rst hp.cmdWord (by rw [State.present, hp.cmdIn]; rfl)

/-- A command that comes to its `respond` leaves the command channel and the host's other inputs alone. -/
theorem Completes.ports_eq {s u : State} {i : Instr} {r : Response} (hc : Completes s i u r) :
    u.cmdIn = s.cmdIn ∧ u.rst = s.rst ∧ u.doutReady = s.doutReady ∧ u.rspReady = s.rspReady := by
  cases hc <;> exact ⟨rfl, rfl, rfl, rfl⟩

/-- A well-formed frame that decodes is run to its end by one step, which leaves the block idle with the other
frames presented. -/
theorem step_present_of_decode {s : State} {f : Frame} (fs : List Frame) {i : Instr} (hi : IndexInv s)
    (hp : IdlePorts s) (hf : f.WellFormed) (hd : decode f.word = .ok i) :
    ∃ u r, Completes (s.begun f fs) i u r ∧ IdlePorts (u.answered r).drained ∧
      step (s.present (f :: fs)) = .next ((u.answered r).drained.present fs) := by
  have hlen : f.payload.length = payloadBytes i := hf.trans (payloadLen_of_decode hd)
  have hdin := begun_din hp.din f fs
  obtain ⟨u, r, hc⟩ := exists_completes (indexInv_begun hi f fs) (i := i) (by simp [hdin, hlen])
  obtain ⟨hcmd, hrst, hdout, hrsp⟩ := hc.ports_eq
  have hleft : u.din = fs.flatMap (fun g => g.payload) := by
    rw [hc.din_eq, hdin, ← hlen, List.drop_left]
  refine ⟨u, r, hc, ⟨hrst.trans hp.rst, rfl, rfl, rfl, hdout.trans hp.doutReady, hrsp.trans hp.rspReady⟩, ?_⟩
  rw [step_present_cons hp, serve_of_decode hd, hc.exec_of_takes (takes_of_ready hp.rspReady hp.doutReady r),
    drained_present (u := u.answered r) hcmd hleft]

/-- Rule R78: a reserved word has no payload. -/
theorem payloadLen_of_reserved {w : Word} {e : Reserved} (hd : decode w = .error e) : payloadLen w = 0 := by
  refine if_neg ?_
  rintro (hpush | hchecksum)
  · have hok := (Decodes.push hpush rfl).decode_eq
    rw [hd] at hok
    cases hok
  · have hok := (Decodes.checksum hchecksum rfl).decode_eq
    rw [hd] at hok
    cases hok

/-- A well-formed frame with a reserved word is answered by one step, which leaves the block idle with the other frames
presented. -/
theorem step_present_of_reserved {s : State} {f : Frame} (fs : List Frame) {e : Reserved} (hp : IdlePorts s)
    (hf : f.WellFormed) (hd : decode f.word = .error e) :
    step (s.present (f :: fs)) =
      .next (((s.begun f fs).answered (plainResponse .illegalCmd 0#32)).drained.present fs) := by
  have hnil : f.payload = [] := List.length_eq_zero_iff.1 (hf.trans (payloadLen_of_reserved hd))
  have hdin := begun_din hp.din f fs
  rw [hnil, List.nil_append] at hdin
  rw [step_present_cons hp, serve_of_reserved hd, illegalCommand_of_rspReady (by exact hp.rspReady),
    drained_present (u := (s.begun f fs).answered _) rfl hdin]

/-! ## What each frame adds to the stored and to the returned bytes -/

theorem storedBytes_cons (f : Frame) (fs : List Frame) (r : Response) (rs : List Response) :
    storedBytes (f :: fs) (r :: rs) = storedBytes [f] [r] ++ storedBytes fs rs := by
  simp [storedBytes]

theorem returnedBytes_cons (f : Frame) (fs : List Frame) (r : Response) (rs : List Response) :
    returnedBytes (f :: fs) (r :: rs) = returnedBytes [f] [r] ++ returnedBytes fs rs := by
  simp [returnedBytes]

theorem storedBytes_push {f : Frame} {n : Nat} (hd : decode f.word = .ok (.push n)) (r : Response) :
    storedBytes [f] [r] = f.payload.take r.value.toNat := by
  simp [storedBytes, hd]

/-- Only RB.PUSH stores bytes. -/
theorem storedBytes_not_push {f : Frame} (hd : ∀ n, decode f.word ≠ .ok (.push n)) (r : Response) :
    storedBytes [f] [r] = [] := by
  simp [storedBytes]

theorem returnedBytes_pop {f : Frame} {n : Nat} (hd : decode f.word = .ok (.pop n)) (r : Response) :
    returnedBytes [f] [r] = r.out := by
  simp [returnedBytes, hd]

/-- Only RB.POP returns bytes. -/
theorem returnedBytes_not_pop {f : Frame} (hd : ∀ n, decode f.word ≠ .ok (.pop n)) (r : Response) :
    returnedBytes [f] [r] = [] := by
  simp [returnedBytes]

/-- A frame that is neither RB.PUSH nor RB.POP stores and returns nothing. -/
theorem append_storedBytes_of_other {f : Frame} (hpush : ∀ n, decode f.word ≠ .ok (.push n))
    (hpop : ∀ n, decode f.word ≠ .ok (.pop n)) (r : Response) (q : List Byte) :
    q ++ storedBytes [f] [r] = returnedBytes [f] [r] ++ q := by
  rw [storedBytes_not_push hpush, returnedBytes_not_pop hpop, List.append_nil, List.nil_append]

/-- Rule R114 for one command: what was queued and what the command stores are, in order, what it returns and what is
queued afterwards. -/
theorem Completes.fifo {s u : State} {i : Instr} {r : Response} {f : Frame} (hc : Completes s i u r)
    (hd : decode f.word = .ok i) (hk : KeepsIndices s.params.maxStorage f)
    (hpayload : s.din.take (payloadBytes i) = f.payload) :
    s.queue ++ storedBytes [f] [r] = returnedBytes [f] [r] ++ u.queue := by
  obtain ⟨hreset, hconfigure⟩ := hk
  cases hc with
  | configure hc =>
    have := hconfigure _ hd
    omega
  | reset => exact absurd hd hreset
  | @push n hi hl =>
    have hn : n < 2 ^ 24 := (encodeOfDecodedIsSameWord _ _ hd).1
    have hcount : (valueOf (min n s.free)).toNat = min n s.free := toNat_valueOf (by omega)
    have hstored : storedBytes [f] [pushResponse n (min n s.free)] = (s.din.take n).take s.free := by
      rw [storedBytes_push hd, ← hpayload, pushResponse, hcount, payloadBytes, List.take_take, List.take_take]
      congr 1
      omega
    rw [hstored, returnedBytes_not_pop (by simp [hd]), queue_pushed hi hl, List.nil_append]
  | @pop n hi =>
    rw [storedBytes_not_push (by simp [hd]), returnedBytes_pop hd, queue_popped hi, List.append_nil]
    exact (List.take_append_drop n _).symm
  | configureOutOfRange | checksum | rdreg | rdregMaxStorage =>
    exact append_storedBytes_of_other (by simp [hd]) (by simp [hd]) _ _

/-! ## The induction over the frames -/

/-- The idle block `s` becomes the idle block `t` by answering the frames `fs` with `rs`: one response each, and
the bytes in order (rule R114). -/
structure ServesInOrder (s : State) (fs : List Frame) (rs : List Response) (t : State) : Prop where
  index : IndexInv t
  ports : IdlePorts t
  params : t.params = s.params
  rsp : t.rsp = s.rsp ++ rs
  length : rs.length = fs.length
  fifo : s.queue ++ storedBytes fs rs = returnedBytes fs rs ++ t.queue

theorem ServesInOrder.nil {s : State} (hi : IndexInv s) (hp : IdlePorts s) : ServesInOrder s [] [] s where
  index := hi
  ports := hp
  params := rfl
  rsp := (List.append_nil _).symm
  length := rfl
  fifo := List.append_nil _

theorem ServesInOrder.cons {s u t : State} {f : Frame} {fs : List Frame} {r : Response} {rs : List Response}
    (hfirst : ServesInOrder s [f] [r] u) (hrest : ServesInOrder u fs rs t) :
    ServesInOrder s (f :: fs) (r :: rs) t where
  index := hrest.index
  ports := hrest.ports
  params := hrest.params.trans hfirst.params
  rsp := by rw [hrest.rsp, hfirst.rsp, List.append_assoc, List.singleton_append]
  length := congrArg (· + 1) hrest.length
  fifo := by
    rw [storedBytes_cons, returnedBytes_cons, ← List.append_assoc, hfirst.fifo, List.append_assoc, hrest.fifo,
      List.append_assoc]

/-- One step serves the first frame presented. -/
theorem exists_servesInOrder_step {s : State} {f : Frame} (fs : List Frame) (hi : IndexInv s) (hp : IdlePorts s)
    (hf : f.WellFormed) (hk : KeepsIndices s.params.maxStorage f) :
    ∃ u r, step (s.present (f :: fs)) = .next (u.present fs) ∧ ServesInOrder s [f] [r] u := by
  cases hd : decode f.word with
  | ok i =>
    obtain ⟨u, r, hc, hports, hstep⟩ := step_present_of_decode fs hi hp hf hd
    have hlen : f.payload.length = payloadBytes i := hf.trans (payloadLen_of_decode hd)
    have hpayload : (s.begun f fs).din.take (payloadBytes i) = f.payload := by
      rw [begun_din hp.din, ← hlen, List.take_left]
    have hindex := indexInv_drained (indexInv_answered (hc.indexInv (indexInv_begun hi f fs)) r)
    exact ⟨_, r, hstep, hindex, hports, hc.params_eq, congrArg (· ++ [r]) hc.rsp_eq, rfl, hc.fifo hd hk hpayload⟩
  | error e =>
    exact ⟨_, plainResponse .illegalCmd 0#32, step_present_of_reserved fs hp hf hd,
      indexInv_drained (indexInv_answered (indexInv_begun hi f fs) _),
      ⟨hp.rst, rfl, rfl, rfl, hp.doutReady, hp.rspReady⟩, rfl, rfl, rfl,
      append_storedBytes_of_other (by simp [hd]) (by simp [hd]) _ _⟩

theorem present_nil (s : State) : s.present [] = s := by
  simp [State.present]

/-- A run serves every frame presented. -/
theorem exists_servesInOrder_run {s : State} {fs : List Frame} (hi : IndexInv s) (hp : IdlePorts s)
    (hfs : ∀ f ∈ fs, f.WellFormed ∧ KeepsIndices s.params.maxStorage f) :
    ∃ (t : State) (rs : List Response), core.run fs.length (s.present fs) = .next t ∧ ServesInOrder s fs rs t := by
  induction fs generalizing s with
  | nil => exact ⟨s, [], congrArg _ (present_nil s), .nil hi hp⟩
  | cons f fs ih =>
    obtain ⟨⟨hf, hk⟩, hrest⟩ := List.forall_mem_cons.1 hfs
    obtain ⟨u, r, hstep, hfirst⟩ := exists_servesInOrder_step fs hi hp hf hk
    obtain ⟨t, rs, hrun, hserves⟩ := ih hfirst.index hfirst.ports (hfirst.params ▸ hrest)
    exact ⟨t, r :: rs, (run_succ_of_step _ hstep).trans hrun, hfirst.cons hserves⟩

/-! ## The round trip -/

/-- A frame of a well-formed command with the payload that command takes is well-formed. -/
theorem wellFormed_encode {i : Instr} {bs : List Byte} (h : i.WellFormed) (hlen : bs.length = payloadBytes i) :
    ({ word := encode i, payload := bs } : Frame).WellFormed :=
  hlen.trans (payloadLen_encode h).symm

/-- The step of an RB.PUSH presented to an idle block. -/
theorem exists_step_push {s : State} {bs : List Byte} (fs : List Frame) (hi : IndexInv s) (hp : IdlePorts s)
    (hlen : bs.length < 2 ^ 24) :
    ∃ u, step (s.present ({ word := encode (.push bs.length), payload := bs } :: fs)) = .next (u.present fs) ∧
      IndexInv u ∧ IdlePorts u ∧ u.queue = s.queue ++ bs.take s.free ∧
      u.rsp = s.rsp ++ [pushResponse bs.length (min bs.length s.free)] := by
  obtain ⟨u, r, hc, hports, hstep⟩ := step_present_of_decode fs hi hp
    (wellFormed_encode (i := .push bs.length) hlen rfl) (decodeOfEncodeIsIdentity _ hlen)
  cases hc with
  | push hbegun hl =>
    refine ⟨_, hstep, indexInv_drained (indexInv_answered (indexInv_pushed hbegun _) _), hports, ?_, rfl⟩
    have hqueue := queue_pushed hbegun hl
    rw [begun_din hp.din, List.take_left] at hqueue
    exact hqueue

/-- The step of an RB.POP presented to an idle block. -/
theorem exists_step_pop {s : State} {n : Nat} (fs : List Frame) (hi : IndexInv s) (hp : IdlePorts s)
    (hn : n < 2 ^ 24) :
    ∃ u : State, step (s.present ({ word := encode (.pop n), payload := [] } :: fs)) = .next (u.present fs) ∧
      u.rsp = s.rsp ++ [popResponse n (s.queue.take n)] := by
  obtain ⟨u, r, hc, -, hstep⟩ := step_present_of_decode fs hi hp
    (wellFormed_encode (i := .pop n) (bs := []) hn rfl) (decodeOfEncodeIsIdentity _ hn)
  cases hc with
  | pop => exact ⟨_, hstep, rfl⟩

/-- Bytes that fit an empty buffer come back whole from an RB.POP that asks for them. -/
theorem run_push_pop {s : State} {bs : List Byte} (hi : IndexInv s) (hp : IdlePorts s) (hempty : s.empty = true)
    (hfits : bs.length ≤ s.capacity - 1) (hlen : bs.length < 2 ^ 24) :
    ∃ t : State, core.run 2 (s.present [{ word := encode (.push bs.length), payload := bs },
        { word := encode (.pop bs.length), payload := [] }]) = .next t ∧
      t.rsp = s.rsp ++ [pushResponse bs.length bs.length, popResponse bs.length bs] := by
  have hroom : bs.length ≤ s.free := by
    have hsum := free_add_occupancy hi
    rw [(empty_iff_occupancy hi).1 hempty] at hsum
    omega
  obtain ⟨u, hpush, hiu, hpu, hqueue, hrspu⟩ := exists_step_push _ hi hp hlen
  obtain ⟨t, hpop, hrspt⟩ := exists_step_pop [] hiu hpu hlen
  rw [queue_of_head_eq_tail ((empty_iff s).1 hempty), List.take_of_length_le hroom, List.nil_append] at hqueue
  rw [Nat.min_eq_left hroom] at hrspu
  rw [hqueue, List.take_length, hrspu, List.append_assoc] at hrspt
  exact ⟨t.present [], (run_succ_of_step 1 hpush).trans (run_succ_of_step 0 hpop), hrspt⟩

/-- Settles O29: one step per frame, each of which keeps the bytes in order. -/
theorem fifoOrderAndRoundTrip : Obligations.FifoOrderAndRoundTrip := by
  unfold Obligations.FifoOrderAndRoundTrip
  constructor
  · intro s fs hi hp hfs
    obtain ⟨t, rs, hrun, hserves⟩ := exists_servesInOrder_run hi hp hfs
    refine ⟨t, rs, hrun, hserves.rsp, hserves.length, hserves.fifo, fun hqueue => ⟨t.queue, ?_⟩⟩
    rw [← hserves.fifo, hqueue, List.nil_append]
  · intro s bs hi hp hempty hfits hlen
    obtain ⟨t, hrun, hrsp⟩ := run_push_pop hi hp hempty hfits hlen
    refine ⟨t, hrun, hrsp.trans ?_⟩
    rw [pushResponse_eq, popResponse_eq rfl]
    simp

end Sys2Proof.Machine
end

section
/-! PROOFS. The CRC unit (rules R131 to R139): the shifts are linear over XOR, so one byte of the table-free loop is one
look-up in the table; and what a CRC.CHECKSUM whose response is taken leaves and answers. -/

namespace Sys2Proof.Machine

/-! ## The shifts of the table build -/

/-- One shift adds the polynomial, or 0, as the bit shifted out says. -/
theorem crcShift_eq (c : Half) : crcShift c = (c <<< 1) ^^^ (if c.getLsbD 15 then Config.poly else 0#16) := by
  unfold crcShift
  split
  · rfl
  · exact BitVec.xor_zero.symm

theorem crcShift_of_top_zero {c : Half} (h : c.getLsbD 15 = false) : crcShift c = c <<< 1 := by
  rw [crcShift_eq, h, if_neg Bool.false_ne_true, BitVec.xor_zero]

/-- The polynomials two values add are added together, and cancel where both do. -/
theorem ite_xor_poly (x y : Bool) : (if (x ^^ y) then Config.poly else 0#16) =
    (if x then Config.poly else 0#16) ^^^ (if y then Config.poly else 0#16) := by
  cases x <;> cases y <;> rfl

theorem crcShift_xor (a b : Half) : crcShift (a ^^^ b) = crcShift a ^^^ crcShift b := by
  rw [crcShift_eq, crcShift_eq a, crcShift_eq b, BitVec.getLsbD_xor, ite_xor_poly, BitVec.shiftLeft_xor_distrib]
  ac_rfl

/-- The shifts are linear over XOR. -/
theorem crcShifts_xor (n : Nat) (a b : Half) : crcShifts n (a ^^^ b) = crcShifts n a ^^^ crcShifts n b := by
  induction n generalizing a b with
  | zero => rfl
  | succ n ih => rw [crcShifts, crcShift_xor, ih, crcShifts, crcShifts]

/-- While the bits shifted out are 0, the polynomial does not come in. -/
theorem crcShifts_of_top_zero {n : Nat} {c : Half} (h : ∀ i < n, c.getLsbD (15 - i) = false) :
    crcShifts n c = c <<< n := by
  induction n generalizing c with
  | zero => simp [crcShifts]
  | succ n ih =>
    have hnext : ∀ i < n, (c <<< 1).getLsbD (15 - i) = false := by
      intro i hi
      have hbit := h (i + 1) (by omega)
      rw [← Nat.sub_sub] at hbit
      simp [hbit]
    rw [crcShifts, crcShift_of_top_zero (h 0 (by omega)), ih hnext, ← BitVec.shiftLeft_add, Nat.add_comm]

/-- The low byte of the accumulator is shifted up unchanged. -/
theorem crcShifts_low (l : Byte) : crcShifts 8 (l.setWidth 16) = l.setWidth 16 <<< 8 :=
  crcShifts_of_top_zero fun i hi => by
    rw [BitVec.getLsbD_setWidth, BitVec.getLsbD_of_ge l _ (by omega), Bool.and_false]

/-! ## The table -/

theorem tableEntry_toNat (b : Byte) : tableEntry b.toNat = crcShifts 8 (b.setWidth 16 <<< 8) := by
  rw [tableEntry, BitVec.ofNat_toNat]

/-- Rule R132: the table is linear over XOR. -/
theorem tableEntry_xor (a b : Byte) :
    tableEntry (a ^^^ b).toNat = tableEntry a.toNat ^^^ tableEntry b.toNat := by
  simp only [tableEntry_toNat, BitVec.setWidth_xor, BitVec.shiftLeft_xor_distrib, crcShifts_xor]

/-- Settles O35: the values are computed by the rule, the linearity is that of the shifts. -/
theorem tableIsLinearOverXor : Obligations.TableIsLinearOverXor := by
  unfold Obligations.TableIsLinearOverXor
  exact ⟨by decide, by decide, tableEntry_xor⟩

/-! ## One byte of the table-free loop is one look-up -/

/-- The accumulator with a byte XORed into its high half is its low byte below the table index of rule R133. -/
theorem xor_high_eq (c : Half) (b : Byte) :
    c ^^^ (b.setWidth 16 <<< 8) = (c.setWidth 8).setWidth 16 ^^^ ((crcIndex c b).setWidth 16 <<< 8) := by
  ext i hi
  by_cases h : i < 8
  · simp [crcIndex, h, BitVec.getLsbD_eq_getElem hi]
  · have hindex : i - 8 < 8 := by omega
    have hbit : 8 + (i - 8) = i := by omega
    simp [crcIndex, h, hindex, hbit, BitVec.getLsbD_eq_getElem hi]

/-- Only the low byte survives the shift by 8. -/
theorem setWidth_shiftLeft_eight (c : Half) : (c.setWidth 8).setWidth 16 <<< 8 = c <<< 8 := by
  ext i hi
  by_cases h : i < 8
  · simp [h]
  · have hlow : i - 8 < 8 := by omega
    simp [h, hlow, BitVec.getLsbD_eq_getElem (hlow.trans (by decide : 8 < 16))]

/-- Rule R138: eight shifts of the accumulator are one look-up in the table. -/
theorem crcSerialStep_eq (c : Half) (b : Byte) :
    crcSerialStep c b = (c <<< 8) ^^^ tableEntry (crcIndex c b).toNat := by
  rw [crcSerialStep, xor_high_eq, crcShifts_xor, crcShifts_low, setWidth_shiftLeft_eight, tableEntry_toNat]

/-- Rule R138: over a built table the accumulation is the table-free loop. -/
theorem crcLoop_eq_crcSerial {s : State} (h : ∀ i, i < Config.tableN → s.tblRead i = tableEntry i)
    (c : Half) (bs : List Byte) : s.crcLoop c bs = crcSerial c bs := by
  induction bs generalizing c with
  | nil => rfl
  | cons b bs ih =>
    rw [State.crcLoop, crcSerial, ih, State.crcStep, crcSerialStep_eq, h _ (crcIndex c b).isLt]

/-! ## What a CRC.CHECKSUM leaves and answers -/

theorem tblRead_of_read {s : State} {i : Nat} {v : Half} (h : Memory.read s.table i = some v) :
    s.tblRead i = v := by
  rw [State.tblRead, h, Option.getD_some]

/-- Rule R32: with `ready` 1 every entry is built. -/
theorem tblRead_of_ready {s : State} (h : ReadyInv s) (hr : s.ready = true) {i : Nat} (hi : i < Config.tableN) :
    s.tblRead i = tableEntry i :=
  tblRead_of_read (h hr i hi)

/-- Rule R134: a CRC.CHECKSUM, the first or a later one, leaves all entries built. -/
theorem read_checksummed {s : State} (h : ReadyInv s) (n : Nat) {i : Nat} (hi : i < Config.tableN) :
    Memory.read (s.checksummed n).table i = some (tableEntry i) :=
  read_ensureTable (s := s.consumePayload n) h hi

theorem tblRead_checksummed {s : State} (h : ReadyInv s) (n : Nat) {i : Nat} (hi : i < Config.tableN) :
    (s.checksummed n).tblRead i = tableEntry i :=
  tblRead_of_read (read_checksummed h n hi)

theorem checksummed_table_of_ready {s : State} (h : s.ready = true) (n : Nat) :
    (s.checksummed n).table = s.table := by
  rw [← ensureTable_eq_checksummed, ensureTable_of_ready (s := s.consumePayload n) h, consumePayload_table]

/-- A CRC.CHECKSUM of `n` bytes whose payload is there and whose response is taken answers the table-free checksum of
the payload (rules R130, R138). -/
theorem exec_checksum_of_payload {s : State} {n : Nat} (h : ReadyInv s) (hr : s.rspReady = true)
    (hl : n ≤ s.din.length) :
    exec (.checksum n) s = .next ((s.checksummed n).answered
      (plainResponse .ok (zext32 (crcSerial Config.crcInit (s.din.take n))))) := by
  rw [(Completes.checksum hl).exec_of_takes ((takes_plainResponse _ _ _).trans hr),
    crcLoop_eq_crcSerial fun _ => tblRead_checksummed h n]

/-- Settles O18: the response is the table-free one, and the next state is written out. -/
theorem checksumEqualsBitSerialForm : Obligations.ChecksumEqualsBitSerialForm := by
  unfold Obligations.ChecksumEqualsBitSerialForm
  intro s len h hr hl
  exact ⟨_, exec_checksum_of_payload h hr hl, rfl, fun hready => checksummed_table_of_ready hready len,
    fun _ hi => tblRead_checksummed h len hi⟩

/-- Settles O36: a CRC.CHECKSUM leaves all entries built, and no other command writes `table` or `ready`. -/
theorem tableBuiltOnceByChecksum : Obligations.TableBuiltOnceByChecksum := by
  unfold Obligations.TableBuiltOnceByChecksum
  refine ⟨fun s len hready hr hl => ?_, fun s t len hready h => ?_, fun s t i h hne => ?_⟩
  · have hinv := readyInv_of_not_ready hready
    exact ⟨_, exec_checksum_of_payload hinv hr hl, rfl, fun _ hi => read_checksummed hinv len hi⟩
  · obtain rfl | ⟨-, -, rfl⟩ := exec_checksum_cases h
    · exact ⟨rfl, hready⟩
    · exact ⟨checksummed_table_of_ready hready len, rfl⟩
  · obtain ⟨-, -, -, -, -, -, hcrc⟩ := whoWritesEachRegister s t i h
    by_contra hchanged
    obtain ⟨len, hlen⟩ := hcrc (not_and_or.1 hchanged)
    exact hne len hlen

/-- Settles O37: the table-free checksum reads the payload and nothing else. -/
theorem checksumDependsOnPayloadOnly : Obligations.ChecksumDependsOnPayloadOnly := by
  unfold Obligations.ChecksumDependsOnPayloadOnly
  intro s s' len h h' hr hr' hl hl' hpayload
  have hexec' := exec_checksum_of_payload h' hr' hl'
  rw [← hpayload] at hexec'
  exact ⟨_, _, _, exec_checksum_of_payload h hr hl, hexec', rfl, rfl, rfl, rfl⟩

/-! ## The published check value -/

/-- Rule R137: the table-free loop over the check message, before the first byte and after each. -/
theorem crcSerial_checkMessage :
    (List.range 10).map (fun n => crcSerial 0xFFFF#16 (checkMessage.take n)) =
      [0xFFFF#16, 0xC782#16, 0x3DBA#16, 0x5BCE#16, 0x5349#16, 0x4560#16, 0x2EF4#16, 0x7718#16, 0xA12B#16,
       0x29B1#16] := by decide

/-- Rule R137: the last of these values is the published one. -/
theorem crcSerial_crcInit_checkMessage : crcSerial Config.crcInit checkMessage = 0x29B1#16 :=
  Option.some.inj (congrArg (·[9]?) crcSerial_checkMessage)

/-- Settles O38: every accumulation over a built table takes the values of the table-free loop. -/
theorem publishedCheckValue : Obligations.PublishedCheckValue := by
  unfold Obligations.PublishedCheckValue
  refine ⟨fun s h hr hmsg => ?_, by decide, fun s h hready => ?_, crcSerial_checkMessage⟩
  · have hl : 9 ≤ s.din.length := by
      have hlen : min 9 s.din.length = 9 := List.length_take.symm.trans (congrArg List.length hmsg)
      omega
    have hexec := exec_checksum_of_payload h hr hl
    rw [hmsg, crcSerial_crcInit_checkMessage] at hexec
    exact ⟨_, hexec, rfl⟩
  · simp only [crcLoop_eq_crcSerial fun _ => tblRead_of_ready h hready]
    exact crcSerial_checkMessage

end Sys2Proof.Machine
end

section
/-! PROOFS. SYS.RDREG (rules R150 to R154): its command words, the two status registers bit by bit, what the registers
hold after hardware reset, and that a register read leaves what every other command works on as it was. -/

namespace Sys2Proof.Machine

/-! ## A completed register read -/

theorem exec_rdreg_of_rspReady {s : State} (hr : s.rspReady = true) (q : Reg) :
    exec (.rdreg q) s = .next (s.answered (plainResponse .ok (s.regValue q))) :=
  Completes.rdreg.exec_of_takes ((takes_plainResponse _ _ _).trans hr)

theorem exec_rdregMaxStorage_of_rspReady {s : State} (hr : s.rspReady = true) :
    exec .rdregMaxStorage s = .next (s.answered (plainResponse .ok (valueOf s.params.maxStorage))) :=
  Completes.rdregMaxStorage.exec_of_takes ((takes_plainResponse _ _ _).trans hr)

/-- Settles O20: SYS.RDREG comes to its `respond` in the state it began in. -/
theorem rdregCompletes : Obligations.RdregCompletes := by
  unfold Obligations.RdregCompletes
  intro s r hr
  exact exec_rdreg_of_rspReady hr r

/-- Settles O21: so does SYS.RDREG of register 8. -/
theorem rdregMaxStorageCompletes : Obligations.RdregMaxStorageCompletes := by
  unfold Obligations.RdregMaxStorageCompletes
  intro s hr
  exact exec_rdregMaxStorage_of_rspReady hr

/-! ## The two status registers -/

/-- Rule R153: `RB_STATUS` is the weight of its two flags. -/
theorem rbStatus_eq_add (s : State) :
    s.rbStatus = (if s.empty then 1#32 else 0#32) + (if s.full then 2#32 else 0#32) := by
  unfold State.rbStatus
  cases s.empty <;> cases s.full <;> rfl

/-! Rule R153: `RB_STATUS` bit by bit. -/

theorem getLsbD_zero_rbStatus (s : State) : s.rbStatus.getLsbD 0 = s.empty := by
  rw [rbStatus_eq_add]
  cases s.empty <;> cases s.full <;> rfl

theorem getLsbD_one_rbStatus (s : State) : s.rbStatus.getLsbD 1 = s.full := by
  rw [rbStatus_eq_add]
  cases s.empty <;> cases s.full <;> rfl

theorem getLsbD_rbStatus_of_two_le (s : State) {j : Nat} (hj : 2 ≤ j) : s.rbStatus.getLsbD j = false :=
  BitVec.getLsbD_append.trans ((if_neg (by omega)).trans BitVec.getLsbD_zero)

theorem rbStatus_eq_three_iff (s : State) : s.rbStatus = 3#32 ↔ s.empty = true ∧ s.full = true := by
  rw [rbStatus_eq_add]
  cases s.empty <;> cases s.full <;> decide

/-- Rule R29: both flags are 1 exactly at capacity 1. -/
theorem empty_and_full_iff {s : State} (h : IndexInv s) :
    s.empty = true ∧ s.full = true ↔ s.capacity = 1 := by
  obtain ⟨hone, htwo⟩ := capacityOneIsEmptyAndFull s h
  refine ⟨fun hboth => ?_, fun hcap => ?_⟩
  · by_contra hne
    have hpos := h.capacity_pos
    exact htwo (by omega) hboth
  · obtain ⟨-, -, hempty, hfull, -, -⟩ := hone hcap
    exact ⟨hempty, hfull⟩

/-- Rule R154: `CRC_STATUS` is its one flag. -/
theorem crcStatus_eq (s : State) : s.crcStatus = if s.ready then 1#32 else 0#32 := by
  unfold State.crcStatus
  cases s.ready <;> rfl

/-- Settles O23: the two low bits are the flags, which are both 1 exactly at capacity 1. -/
theorem rbStatusFields : Obligations.RbStatusFields := by
  unfold Obligations.RbStatusFields
  intro s h
  refine ⟨?_, ?_, fun j hj => getLsbD_rbStatus_of_two_le s hj,
    (rbStatus_eq_three_iff s).trans (empty_and_full_iff h)⟩
  · rw [State.regValue, getLsbD_zero_rbStatus, empty_iff]
  · rw [State.regValue, getLsbD_one_rbStatus, full_iff, State.nextIndex]

/-! ## The register map -/

/-- Rules R71, R150: the command words of SYS.RDREG. -/
theorem decode_rdregWord {n : Nat} {i : Instr} (hn : n < 2 ^ 24) (hd : decode (commandWord opRdreg n) = .ok i) :
    decode (0x30000000#32 + BitVec.ofNat 32 n) = .ok i := by
  rw [← hd, commandWord_eq_add opRdreg hn]
  rfl

/-- A register read, from its command word to the whole next state. -/
theorem exists_rdreg_answer {s : State} {n : Nat} {v : Word} (q : Reg) (hr : s.rspReady = true)
    (hn : q.number = n) (hv : s.regValue q = v) :
    ∃ i, decode (0x30000000#32 + BitVec.ofNat 32 n) = .ok i ∧
      exec i s = .next (s.answered (plainResponse .ok v)) := by
  subst hn hv
  exact ⟨.rdreg q, decode_rdregWord (q.number_lt.trans (by omega)) (decodeOfEncodeIsIdentity (.rdreg q) trivial),
    exec_rdreg_of_rspReady hr q⟩

/-- Settles O19: each row of the map is a register and its value, the two status registers by their flags. -/
theorem rdregAnswersRegisterMap : Obligations.RdregAnswersRegisterMap := by
  unfold Obligations.RdregAnswersRegisterMap
  intro s n v hr hrow
  have hstatus := rbStatus_eq_add s
  simp only [empty_iff, full_iff, State.nextIndex] at hstatus
  simp only [List.mem_cons, Prod.mk.injEq, List.not_mem_nil, or_false] at hrow
  obtain ⟨rfl, rfl⟩ | ⟨rfl, rfl⟩ | ⟨rfl, rfl⟩ | ⟨rfl, rfl⟩ | ⟨rfl, rfl⟩ |
    ⟨rfl, rfl⟩ | ⟨rfl, rfl⟩ | ⟨rfl, rfl⟩ | ⟨rfl, rfl⟩ := hrow
  · exact exists_rdreg_answer .rbCapacity hr rfl rfl
  · exact exists_rdreg_answer .rbHead hr rfl rfl
  · exact exists_rdreg_answer .rbTail hr rfl rfl
  · exact exists_rdreg_answer .rbStatus hr rfl hstatus
  · exact exists_rdreg_answer .rbCount hr rfl rfl
  · exact exists_rdreg_answer .rbTotalPushed hr rfl rfl
  · exact exists_rdreg_answer .rbTotalPopped hr rfl rfl
  · exact exists_rdreg_answer .crcStatus hr rfl (crcStatus_eq s)
  · exact ⟨.rdregMaxStorage, decode_rdregWord (by omega) (decodeOfEncodeIsIdentity .rdregMaxStorage trivial),
      exec_rdregMaxStorage_of_rspReady hr⟩

/-! ## After hardware reset -/

/-- Rule R152: a block in reset is empty, and full only at `RESET_CAPACITY` 1. -/
theorem rbStatus_hardwareReset {s : State} (h : s.params.Valid) :
    (hardwareReset s).rbStatus = if s.params.resetCapacity = 1 then 3#32 else 1#32 := by
  have hfull : (hardwareReset s).full = true ↔ s.params.resetCapacity = 1 :=
    full_of_zero_iff rfl rfl (indexInv_hardwareReset h).capacity_pos
  rw [rbStatus_eq_add, if_pos (empty_of_zero rfl rfl)]
  simp only [hfull]
  split <;> rfl

/-- Settles O12: `RESET_CAPACITY` and `MAX_STORAGE` fit a response, and the other registers are 0. -/
theorem registersAfterHardwareReset : Obligations.RegistersAfterHardwareReset := by
  unfold Obligations.RegistersAfterHardwareReset
  intro s h
  have hmax : s.params.maxStorage < 2 ^ 32 := maxStorage_lt_of_valid h
  have hcap : s.params.resetCapacity < 2 ^ 32 := (indexInv_hardwareReset h).capacity_le.trans_lt hmax
  have hcount : (hardwareReset s).occupancy = 0 := occupancy_of_head_eq_tail rfl
  exact ⟨toNat_valueOf hcap, rfl, rfl, rbStatus_hardwareReset h, congrArg valueOf hcount, rfl, rfl,
    crcStatus_eq _, toNat_valueOf hmax⟩

/-! ## A register read before another command -/

/-- A response in between does not touch what CRC.CHECKSUM works on. -/
theorem checksummed_answered (s : State) (r : Response) (n : Nat) :
    (s.answered r).checksummed n = (s.checksummed n).answered r := by
  have htable : ((s.answered r).consumePayload n).ensureTable.table = (s.consumePayload n).ensureTable.table :=
    ensureTable_table_congr rfl rfl
  rw [State.checksummed, htable]
  rfl

theorem crcLoop_answered (s : State) (r : Response) (crc : Half) (bs : List Byte) :
    (s.answered r).crcLoop crc bs = s.crcLoop crc bs :=
  crcLoop_congr (fun i => tblRead_congr (answered_table s r) (answered_resets s r) i) crc bs

theorem regValue_answered (s : State) (r : Response) (q : Reg) : (s.answered r).regValue q = s.regValue q := by
  cases q <;> rfl

/-- Rule R13: no command works on the response log, so after another response it comes to the same response, in the
same state but for that log. -/
theorem Completes.after_response {s u : State} {i : Instr} {x : Response} (h : Completes s i u x) (r : Response) :
    Completes (s.answered r) i (u.answered r) x := by
  cases h with
  | configure hc => exact .configure hc
  | configureOutOfRange hc => exact .configureOutOfRange hc
  | reset => exact .reset
  | push hi hl => exact pushed_answered s r _ ▸ .push (indexInv_answered hi r) hl
  | pop hi => exact .pop (indexInv_answered hi r)
  | checksum hl =>
    have hc : Completes (s.answered r) _ _ _ := .checksum hl
    rwa [checksummed_answered, crcLoop_answered] at hc
  | rdreg => exact regValue_answered s r _ ▸ .rdreg
  | rdregMaxStorage => exact .rdregMaxStorage

/-- A register read whose response is taken answers, and does nothing else. -/
theorem exists_answered_of_rdreg {s a : State} {q : Instr} (hq : q = .rdregMaxStorage ∨ ∃ r, q = .rdreg r)
    (hr : s.rspReady = true) (h : exec q s = .next a) : ∃ r, a = s.answered r := by
  obtain rfl | ⟨r, rfl⟩ := hq
  · exact ⟨_, Host.Outcome.next.inj (h.symm.trans (exec_rdregMaxStorage_of_rspReady hr))⟩
  · exact ⟨_, Host.Outcome.next.inj (h.symm.trans (exec_rdreg_of_rspReady hr r))⟩

/-- A command whose response was transferred had it taken by the host. -/
theorem Completes.takes_of_rsp {s u t : State} {i : Instr} {r x : Response} (hc : Completes s i u r)
    (h : exec i s = .next t) (hrsp : t.rsp = s.rsp ++ [x]) : s.takes r = true := by
  obtain rfl := Host.Outcome.next.inj (hc.exec_eq.symm.trans h)
  exact (respond_of_rsp hc.rsp_eq hrsp).1

/-- Settles O43: the read leaves the block as it was but for its response, and the command comes to its `respond`
as it would have without it. -/
theorem rdregIsInvisibleToOthers : Obligations.RdregIsInvisibleToOthers := by
  unfold Obligations.RdregIsInvisibleToOthers
  intro s a b c q i x hq hr hread hafter hwithout hrsp
  obtain ⟨r, rfl⟩ := exists_answered_of_rdreg hq hr hread
  obtain ⟨u, hc, rfl⟩ := completes_of_rsp hwithout hrsp
  have htakes : (s.answered r).takes x = true := hc.takes_of_rsp hwithout hrsp
  obtain rfl := Host.Outcome.next.inj (((hc.after_response r).exec_of_takes htakes).symm.trans hafter)
  exact ⟨congrArg (fun log => log ++ [r] ++ [x]) hc.rsp_eq, rfl⟩

end Sys2Proof.Machine
end

section
/-! PROOFS. Every step has a next state, and an idle block keeps all state (rules R160, R166, R169, R175, R194); the
two units share no state, so their commands commute (rules R3, R174). -/

namespace Sys2Proof.Machine

/-! ## No step stops -/

theorem indexInv_withChannels {s : State} (h : IndexInv s) (cmdIn : List Word) (cmdWord : Option Word)
    (din : List Byte) : IndexInv { s with cmdIn := cmdIn, cmdWord := cmdWord, din := din } :=
  ⟨h.capacity_pos, h.capacity_le, h.head_lt, h.tail_lt⟩

/-- Rule R160: a command waits for its payload or comes to its `respond`; neither stops. -/
theorem exists_next_of_exec {s : State} (h : IndexInv s) (i : Instr) : ∃ t, exec i s = .next t := by
  by_cases hp : payloadBytes i ≤ s.din.length
  · obtain ⟨u, r, hc⟩ := exists_completes h hp
    exact ⟨_, hc.exec_eq⟩
  · exact ⟨s, exec_waits h (not_le.1 hp)⟩

theorem exists_next_of_serve {s : State} (h : IndexInv s) (w : Word) : ∃ t, serve w s = .next t := by
  cases hd : decode w with
  | ok i =>
    rw [serve_of_decode hd]
    exact exists_next_of_exec h i
  | error e => exact ⟨_, serve_of_reserved hd s⟩

/-- Settles O49: of the four things a step can do, hardware reset and idling never stop, and the other two serve a
word in a state of the index invariant. -/
theorem noStepStops : Obligations.NoStepStops := by
  unfold Obligations.NoStepStops
  intro s h
  cases hrst : s.rst with
  | true => exact ⟨_, step_of_rst hrst⟩
  | false =>
    cases hw : s.cmdWord with
    | some w =>
      rw [step_of_inProgress hrst hw]
      exact exists_next_of_serve h w
    | none =>
      cases hq : s.cmdIn with
      | nil => exact ⟨s, step_of_idle hrst hw hq⟩
      | cons w rest =>
        rw [step_of_presented hrst hw hq]
        exact exists_next_of_serve (indexInv_withChannels h rest (some w) s.din) w

/-- Settles O9: the step of an idle block with no word to accept. -/
theorem idleBlockKeepsState : Obligations.IdleBlockKeepsState := by
  unfold Obligations.IdleBlockKeepsState
  exact fun _ => step_of_idle

/-! ## The two units share no state -/

/-- The state `s` with the CRC unit of `v` (rule R3). -/
def State.withCrcUnit (s v : State) : State := { s with table := v.table, ready := v.ready }

theorem indexInv_withCrcUnit {s : State} (h : IndexInv s) (v : State) : IndexInv (s.withCrcUnit v) :=
  ⟨h.capacity_pos, h.capacity_le, h.head_lt, h.tail_lt⟩

/-- RB.PUSH does not work on the CRC unit. -/
theorem pushed_withCrcUnit (s v : State) (n : Nat) :
    (s.withCrcUnit v).pushed n = (s.pushed n).withCrcUnit v := by
  have hstorage : (pushLoop (s.din.take n) ((s.withCrcUnit v).consumePayload n) 0).1.storage =
      (pushLoop (s.din.take n) (s.consumePayload n) 0).1.storage :=
    pushLoop_storage_congr _ 0 0 rfl rfl rfl rfl
  unfold State.pushed
  rw [show (s.withCrcUnit v).din = s.din from rfl, hstorage]
  rfl

/-- Rule R100: an RB command comes to the same response beside any CRC unit, and leaves that unit as it is. -/
theorem Completes.beside_crcUnit {s u : State} {i : Instr} {r : Response} (h : Completes s i u r)
    (hrb : isRb i = true) (v : State) : Completes (s.withCrcUnit v) i (u.withCrcUnit v) r := by
  cases h with
  | configure hc => exact .configure hc
  | configureOutOfRange hc => exact .configureOutOfRange hc
  | reset => exact .reset
  | push hi hl => exact pushed_withCrcUnit s v _ ▸ .push (indexInv_withCrcUnit hi v) hl
  | pop hi => exact .pop (indexInv_withCrcUnit hi v)
  | checksum | rdreg | rdregMaxStorage => cases hrb

/-- Rule R100: an RB command leaves the CRC unit, and the count of resets its free values go by, as they are. -/
theorem Completes.crcUnit_eq {s u : State} {i : Instr} {r : Response} (h : Completes s i u r)
    (hrb : isRb i = true) : u.table = s.table ∧ u.ready = s.ready ∧ u.resets = s.resets := by
  cases h with
  | checksum | rdreg | rdregMaxStorage => cases hrb
  | configure | configureOutOfRange | reset | push | pop => exact ⟨rfl, rfl, rfl⟩

/-- Rule R130: CRC.CHECKSUM changes the CRC unit and takes its payload, and nothing else. -/
theorem Completes.eq_of_checksum {s v : State} {n : Nat} {c : Response} (h : Completes s (.checksum n) v c) :
    v = { s.withCrcUnit v with din := v.din } := by
  cases h
  rfl

/-- Rule R130: CRC.CHECKSUM works on the CRC unit and its payload alone, so where these agree it comes to the same
response and the same CRC unit. -/
theorem Completes.checksum_congr {s t v : State} {n : Nat} {c : Response} (h : Completes s (.checksum n) v c)
    (htable : t.table = s.table) (hready : t.ready = s.ready) (hresets : t.resets = s.resets)
    (hdin : t.din = s.din) : Completes t (.checksum n) { t.withCrcUnit v with din := v.din } c := by
  cases h with
  | checksum hl =>
    have hbuilt : (t.checksummed n).table = (s.checksummed n).table := ensureTable_table_congr htable hready
    have hvalue := crcLoop_congr (tblRead_congr hbuilt hresets) Config.crcInit (s.din.take n)
    have hstate : { t.withCrcUnit (s.checksummed n) with din := s.din.drop n } = t.checksummed n := by
      rw [State.withCrcUnit, ← hbuilt, ← hdin]
      rfl
    have ht : Completes t (.checksum n) _ _ := .checksum (hdin ▸ hl)
    rw [hdin, hvalue, ← hstate] at ht
    exact ht

/-- Settles O42: after the other command each comes to the same response and writes its own unit, and both take
their whole payload. -/
theorem rbCommandAndChecksumCommute : Obligations.RbCommandAndChecksumCommute := by
  unfold Obligations.RbCommandAndChecksumCommute
  intro s i p q hrb hi hr hd hlen
  obtain ⟨u, r, hrbFirst⟩ := exists_completes (indexInv_withChannels hi s.cmdIn s.cmdWord p) hlen.ge
  obtain ⟨v, c, hcrcFirst⟩ := exists_completes (i := .checksum q.length)
    (indexInv_withChannels hi s.cmdIn s.cmdWord q) le_rfl
  obtain ⟨htable, hready, hresets⟩ := hrbFirst.crcUnit_eq hrb
  obtain ⟨-, -, hudout, hursp⟩ := hrbFirst.ports_eq
  obtain ⟨-, -, hvdout, hvrsp⟩ := hcrcFirst.ports_eq
  have hcrcLast : Completes ({ u with din := q }.answered r) _ _ c :=
    (hcrcFirst.checksum_congr (t := { u with din := q }) htable hready hresets rfl).after_response r
  have hrbLast : Completes { v.answered c with din := p } i ((u.withCrcUnit v).answered c) r := by
    rw [hcrcFirst.eq_of_checksum]
    exact (hrbFirst.beside_crcUnit hrb v).after_response c
  have hlog : u.rsp = s.rsp := hrbFirst.rsp_eq
  have hdin : v.din = u.din := by
    rw [hcrcFirst.din_eq, hrbFirst.din_eq, ← hlen, List.drop_length]
    exact List.drop_length
  refine ⟨u.answered r, _, v.answered c, _, r, c, hrbFirst.exec_of_takes (takes_of_ready hr hd r),
    hcrcLast.exec_of_takes (takes_of_ready (hursp.trans hr) (hudout.trans hd) c),
    hcrcFirst.exec_of_takes (takes_of_ready hr hd c),
    hrbLast.exec_of_takes (takes_of_ready (hvrsp.trans hr) (hvdout.trans hd) r), ?_, ?_, ?_⟩
  · rw [← hlog, List.append_cons]
    rfl
  · rw [← hlog, List.append_cons]
    rfl
  · rw [hdin]
    rfl

end Sys2Proof.Machine
end

section
/-! PROOFS. Hardware reset (rules R190, R191, R193): the reset state does not depend on what the block was doing. -/

namespace Sys2Proof.Machine

/-- Rule R26: no slot written before hardware reset reads as it was. -/
theorem slot_hardwareReset (s : State) (i : Nat) :
    (hardwareReset s).slot i = Config.unspecifiedByte (s.resets + 1) i := by
  simp [State.slot, Memory.read]

/-- Rule R33: no table entry built before hardware reset reads as it was. -/
theorem tblRead_hardwareReset (s : State) (i : Nat) :
    (hardwareReset s).tblRead i = Config.unspecifiedHalf (s.resets + 1) i := by
  simp [State.tblRead, Memory.read]

theorem cmdReady_of_idle {s : State} (h : s.cmdWord = none) : s.cmdReady = !s.rst := by
  simp [State.cmdReady, h]

/-- Rule R191: with no command in progress every output is idle, and `cmd_ready` follows `rst`. -/
theorem levels_of_idle {s : State} (h : s.cmdWord = none) :
    s.rspValid = false ∧ s.doutValid = false ∧ s.evTruncLevel = false ∧ s.dinReady = false ∧
      s.cmdReady = !s.rst := by
  obtain ⟨hdin, hdout, hrsp, hev⟩ := levels_of_rst_or_idle (.inr h)
  exact ⟨hrsp, hdout, hev, hdin, cmdReady_of_idle h⟩

/-- Settles O11: the step is `hardwareReset`, whose indices are both 0 and which leaves no command in progress, so the
outputs are those of an idle block at either level of `rst`. -/
theorem hardwareResetState : Obligations.HardwareResetState := by
  unfold Obligations.HardwareResetState
  intro s hrst
  have hempty : (hardwareReset s).empty = true := empty_of_zero rfl rfl
  have hfull (hc : 1 ≤ s.params.resetCapacity) :
      (hardwareReset s).full = true ↔ s.params.resetCapacity = 1 := full_of_zero_iff rfl rfl hc
  exact ⟨hardwareReset s, step_of_rst hrst, rfl, rfl, rfl, rfl, rfl, rfl, slot_hardwareReset s,
    tblRead_hardwareReset s, rfl, rfl, rfl, hrst, rfl, hempty, hfull, fun _ => levels_of_idle rfl⟩

end Sys2Proof.Machine
end

section
/-! PROOFS. Where the block waits or stops, and where it begins: a command whose frame or output is not served (rule
R200), a transfer outside the index invariant (rules R25, R51), and the state after reset (rule R191). -/

namespace Sys2Proof.Machine

/-! ## Commands that wait -/

/-- No response is taken while `rsp_ready` is 0. -/
theorem takes_of_not_rspReady {s : State} (hr : s.rspReady = false) (r : Response) : s.takes r = false := by
  simp [State.takes, hr]

/-- No response with output bytes is taken while `dout_ready` is 0. -/
theorem takes_of_not_doutReady {s : State} {r : Response} (hd : s.doutReady = false) (ho : r.out ≠ []) :
    s.takes r = false := by
  simp [State.takes, hd, ho]

theorem Completes.exec_of_not_takes {s u : State} {i : Instr} {r : Response} (h : Completes s i u r)
    (ht : s.takes r = false) : exec i s = .next s := by
  rw [h.exec_eq, respond_of_not_takes ht]

/-- Rule R200: a host that takes no response leaves every command waiting, for its payload or in its `respond`. -/
theorem exec_of_not_rspReady {s : State} (h : IndexInv s) (hr : s.rspReady = false) (i : Instr) :
    exec i s = .next s := by
  by_cases hp : payloadBytes i ≤ s.din.length
  · obtain ⟨u, r, hc⟩ := exists_completes h hp
    exact hc.exec_of_not_takes (takes_of_not_rspReady hr r)
  · exact exec_waits h (not_le.1 hp)

/-- CRC.CHECKSUM waits for its payload in every state: it uses no index of the ring buffer. -/
theorem exec_checksum_waits {s : State} {n : Nat} (hl : s.din.length < n) : exec (.checksum n) s = .next s := by
  have hexec : exec (.checksum n) s = .next (checksumCommand n s) := rfl
  have hsame : checksumCommand n s = s :=
    (exec_checksum_cases hexec).resolve_right fun ⟨_, hn, _⟩ => hl.not_ge hn
  rw [hexec, hsame]

/-- An RB.POP with bytes to copy waits for a host that takes them. -/
theorem exec_pop_of_not_doutReady {s : State} {n : Nat} (h : IndexInv s) (hd : s.doutReady = false)
    (hn : 0 < min n s.occupancy) : exec (.pop n) s = .next s := by
  have hout : s.queue.take n ≠ [] := List.ne_nil_of_length_pos (by rwa [length_take_queue])
  exact (Completes.pop h).exec_of_not_takes (takes_of_not_doutReady hd hout)

/-- A reserved word in progress waits for a host that takes its response. -/
theorem step_reserved_of_not_rspReady {s : State} {w : Word} {e : Reserved} (hrst : s.rst = false)
    (hw : s.cmdWord = some w) (hr : s.rspReady = false) (hd : decode w = .error e) : step s = .next s := by
  rw [step_of_inProgress hrst hw, serve_of_reserved hd, illegalCommand,
    respond_of_not_takes (takes_of_not_rspReady hr _)]

/-- Settles O24: the payload is not all there, or the command comes to a `respond` that the host does not take. -/
theorem incompleteFramesWait : Obligations.IncompleteFramesWait := by
  unfold Obligations.IncompleteFramesWait
  exact ⟨fun _ _ h hl => exec_waits h hl, fun _ _ hl => exec_checksum_waits hl,
    fun _ i h hr => exec_of_not_rspReady h hr i,
    fun _ _ hrst hw hr ⟨_, hd⟩ => step_reserved_of_not_rspReady hrst hw hr hd,
    fun _ _ h hd hn => exec_pop_of_not_doutReady h hd hn⟩

/-! ## Transfers that stop -/

theorem exec_push_of_not_indexInv {s : State} (h : ¬ IndexInv s) (n : Nat) :
    exec (.push n) s = .fault .noSuchSlot := by
  rw [← indicesInRange_iff] at h
  exact if_neg h

theorem exec_pop_of_not_indexInv {s : State} (h : ¬ IndexInv s) (n : Nat) :
    exec (.pop n) s = .fault .noSuchSlot := by
  rw [← indicesInRange_iff] at h
  exact if_neg h

/-- Settles O25: the check that both transfers make first is the index invariant. -/
theorem transfersStopOutsideIndexRange : Obligations.TransfersStopOutsideIndexRange := by
  unfold Obligations.TransfersStopOutsideIndexRange
  exact fun _ n h => ⟨exec_push_of_not_indexInv h n, exec_pop_of_not_indexInv h n⟩

/-! ## The state after reset -/

/-- Rule R9: the default build of `2^10` bytes needs 11 bits for its capacity. -/
theorem capW_default : Config.Params.default.capW = 11 :=
  congrArg (· + 1) (Nat.log_pow one_lt_two 10)

theorem params_default_valid : Config.Params.default.Valid :=
  ⟨by decide, ⟨by rw [capW_default]; decide, by decide⟩, by decide⟩

/-- Settles O46: the indices are 0 below the default capacity, the counters are 0, nothing is queued, and both
memories list nothing. -/
theorem resetMeetsInvariant : Obligations.ResetMeetsInvariant where
  params_valid := params_default_valid
  index := ⟨by decide, le_rfl, by decide, by decide⟩
  counters := ⟨Nat.two_pow_pos _, Nat.two_pow_pos _⟩
  memory := ⟨Memory.wf_nil _, Memory.wf_nil _⟩
  ready_table := readyInv_of_not_ready rfl
  queued_written := queuedWritten_of_head_eq_tail rfl

end Sys2Proof.Machine
end
